-- ==== Sys2Proof/Word.lean ====
section
/-! DEFINITION. The words of the block (spec/00_scope.md R5): `u8`, `u10`, `u32`, all unsigned. -/

namespace Sys2Proof

/-- `u8`: a buffer byte, one Latin-1 character (R6). -/
abbrev Byte := BitVec 8

/-- `u10`: the width `LEN_W` of `LEN`, `CAP`, `RLEN`, `I` and `O` (R4). -/
abbrev Count := BitVec 10

/-- `u32`: a register access, a command word, the hash value (R4, R3). -/
abbrev Word := BitVec 32

end Sys2Proof
end

