-- ==== Sys2Proof/Syntax.lean ====
section
/-! DEFINITION. The commands of the block: one constructor per row of spec/opcode_table.json (spec/30_encoding.md R52). -/

namespace Sys2Proof

/-- The three commands. A command word carries no operand (R55). -/
inductive Instr where
  /-- `ENC`: re-encode `IBUF[0..LEN)` from Latin-1 to UTF-8. -/
  | enc
  /-- `HASH.I`: hash `IBUF[0..LEN)`. -/
  | hashI
  /-- `HASH.O`: hash `OBUF[0..LEN)`. -/
  | hashO
deriving DecidableEq, Repr

end Sys2Proof
end

