-- ==== Sys2Proof/Decode.lean ====
section
/-! DEFINITION. The command word: fields (spec/30_encoding.md R50, R51), decoder (R52 to R54) and encoder (R52). -/

namespace Sys2Proof

/-- `OPC = w[7:0]` (R51). -/
def opcField (w : Word) : BitVec 8 := w.extractLsb' 0 8

/-- `SRC = w[8]` (R51). -/
def srcField (w : Word) : BitVec 1 := w.extractLsb' 8 1

/-- `ZERO = w[31:9]` (R51). -/
def zeroField (w : Word) : BitVec 23 := w.extractLsb' 9 23

/-- Why a word is illegal. The spec has one verdict, `ILLEGAL` (R53); the names follow R54's list. DESIGN CHOICE, log 14. -/
inductive IllegalWord where
  /-- `ZERO != 0` -/
  | nonzeroZero
  /-- `OPC == 0x01` with `SRC == 1` -/
  | encWithSource
  /-- `OPC == 0x00`, or `OPC` from 0x03 to 0xFF -/
  | unknownOpcode
deriving DecidableEq, Repr

/-- The decoder, total on all `2^32` words (R53): three decode, every other is illegal (R54). -/
def decode (w : Word) : Except IllegalWord Instr :=
  if zeroField w ≠ 0 then .error .nonzeroZero
  else if opcField w = 0x01 then
    if srcField w = 0 then .ok .enc else .error .encWithSource
  else if opcField w = 0x02 then
    if srcField w = 0 then .ok .hashI else .ok .hashO
  else .error .unknownOpcode

/-- The field `OPC` of a command (R52). -/
def Instr.opc : Instr → BitVec 8
  | .enc => 0x01
  | .hashI => 0x02
  | .hashO => 0x02

/-- The field `SRC` of a command (R52). -/
def Instr.src : Instr → BitVec 1
  | .enc => 0
  | .hashI => 0
  | .hashO => 1

/-- The encoder: `ZERO = 0`, then `SRC`, then `OPC` (R50, R52). -/
def encode (i : Instr) : Word := (0 : BitVec 23) ++ (i.src ++ i.opc)

/-- The column `match` of the opcode table (R52). -/
def Instr.matchWord : Instr → Word
  | .enc => 0x00000001
  | .hashI => 0x00000002
  | .hashO => 0x00000102

/-- The column `mask` of the opcode table (R52). -/
def Instr.maskWord : Instr → Word
  | .enc => 0xFFFFFFFF
  | .hashI => 0xFFFFFFFF
  | .hashO => 0xFFFFFFFF

/-- The command word a table word of `nbits` bits stands for, every bit above `nbits` zero; there is no length but 32
bits (R50), so more bits are no command word. DESIGN CHOICE, log 13. -/
def tableWord (nbits w : Nat) : Option Word :=
  if nbits ≤ 32 then some (BitVec.ofNat 32 (w % 2 ^ nbits)) else none

/-- What `decode` reads from a word numbered as spec/opcode_table.json numbers it. A command word is one 32-bit register
write (R50), so no byte order enters. -/
def decodeTableWord (nbits w : Nat) : Option Instr :=
  match tableWord nbits w with
  | none => none
  | some v =>
    match decode v with
    | .ok i => some i
    | .error _ => none

end Sys2Proof
end

