-- ==== Sys2Proof/Config.lean ====
section
/-! DEFINITION. The constants the source fixes (spec/00_scope.md R3), the window's size (R4), and the values the spec
leaves open, as constants without a body: nothing in Lean can evaluate one. -/

namespace Sys2Proof

/-- `CHAR_CAP`: the longest atom name, in characters and so in Latin-1 bytes (R3). -/
def Config.charCap : Nat := 255

/-- `BYTE_CAP = 2 * CHAR_CAP`: the output size that no input overflows (R3). -/
def Config.byteCap : Nat := 2 * Config.charCap

/-- `ABS_CAP = 4 * CHAR_CAP`: the cap the doubling bound must not exceed (R3; spec/90_conflicts.md C7: it constrains
nothing else). -/
def Config.absCap : Nat := 4 * Config.charCap

/-- `WINDOW_SIZE` (R4). -/
def Config.windowSize : Nat := 0x400

/-- `INIT_IBUF` (R4, R25): the byte `IBUF[i]` holds after a reset until it is written. The first argument counts resets,
so that every reset brings fresh contents (R141). DESIGN CHOICE, log 4. -/
opaque Config.initIbuf : Nat → Nat → Byte

/-- `INIT_OBUF` (R4, R25), as `Config.initIbuf`. DESIGN CHOICE, log 4. -/
opaque Config.initObuf : Nat → Nat → Byte

/-- What a read of `RSEL`, `RLEN` or `HASH` returns while busy (R24, U2), by draw. DESIGN CHOICE, log 3. -/
opaque Config.busyWord : Nat → Word

/-- What a read of a buffer byte returns while busy (R32, U2), by draw. DESIGN CHOICE, log 3. -/
opaque Config.busyByte : Nat → Byte

/-- What a completion or a `Reset` event leaves in `I` (R140, U3), by draw. DESIGN CHOICE, logs 5 and 16. -/
opaque Config.hiddenI : Nat → Count

/-- What a completion or a `Reset` event leaves in `O` (R140, U3), by draw. DESIGN CHOICE, logs 5 and 16. -/
opaque Config.hiddenO : Nat → Count

/-- Whether a completion or a `Reset` event leaves `HS` at 1 (R140, U3), by draw. DESIGN CHOICE, logs 5 and 16. -/
opaque Config.hiddenHs : Nat → Bool

end Sys2Proof
end

