-- ==== Sys2Proof/Machine/Moves.lean ====
section
/-! DEFINITION. What reaches the block from outside: the host's moves (spec/10_state.md R24, spec/20_memory.md R32), the
window accesses that stand for them (R33), the lines of a host script (spec/30_encoding.md R59), and the turns of the
unit and of the platform. Types only. -/

namespace Sys2Proof.Machine

/-- The two buffers; `B(0) = IBUF`, `B(1) = OBUF` (R5), so this is also the type of a source select (`HS`, R20). -/
inductive Buf where
  | ibuf
  | obuf
deriving DecidableEq, Repr

/-- `Size(0) = 255`, `Size(1) = 510` (R5, R11, R12). -/
def Buf.size : Buf → Nat
  | .ibuf => Config.charCap
  | .obuf => Config.byteCap

/-- The seven registers of the window (R24). -/
inductive Reg where
  | cmd
  | status
  | len
  | cap
  | rsel
  | rlen
  | hash
deriving DecidableEq, Repr

/-- The four host moves (R24, R32). An index at or above the buffer's size is no move: `Move.wf`. -/
inductive Move where
  /-- `HRead(reg)` -/
  | regRead (r : Reg)
  /-- `HWrite(reg, v)` -/
  | regWrite (r : Reg) (v : Word)
  /-- `HBufRead(buf, i)` -/
  | bufRead (b : Buf) (i : Nat)
  /-- `HBufWrite(buf, i, v)` -/
  | bufWrite (b : Buf) (i : Nat) (v : Byte)
deriving DecidableEq, Repr

/-- An access to the window, by its offset from `BASE` and its width (R33, R35). -/
inductive Access where
  | load8 (off : Nat)
  | load16 (off : Nat)
  | load32 (off : Nat)
  | store8 (off : Nat) (v : BitVec 8)
  | store16 (off : Nat) (v : BitVec 16)
  | store32 (off : Nat) (v : BitVec 32)
deriving DecidableEq, Repr

/-- One entry of the agenda: what happens next (log 1). -/
inductive Event where
  /-- The host makes a move. -/
  | move (m : Move)
  /-- The host makes an access to the window. -/
  | access (a : Access)
  /-- The busy unit takes one micro-step (R147). -/
  | unitStep
  /-- The platform delivers `Reset` (R140). -/
  | reset
  /-- The script line `wait` (R59). -/
  | wait
  /-- The line `rd STATUS (stop if ERR != 0)` of `atomhash` (R59). -/
  | stopOnError
  /-- The line `wr LEN, n` of `atomhash`: `n` is what the newest read returned (R59). -/
  | lenFromRead
  /-- The line `if s == 0 then cmd HASH.I else cmd HASH.O` of `atomhash`: `s` is what the read before the newest
  returned (R59). -/
  | hashFromRead
deriving DecidableEq, Repr

/-- What a read move returned to the host: a register's word or a buffer's byte. -/
inductive Datum where
  | word (w : Word)
  | byte (b : Byte)
deriving DecidableEq, Repr

end Sys2Proof.Machine
end

