-- ==== Sys2Proof/WellFormed.lean ====
section
/-! DEFINITION. Well-formedness of commands, host moves, window accesses and agenda entries. -/

namespace Sys2Proof

/-- Every command is well formed: a command word carries no immediate and no register number (spec/30_encoding.md R55). -/
def Instr.wf : Instr → Bool
  | .enc => true
  | .hashI => true
  | .hashO => true

namespace Machine

/-- A buffer move names an index below the buffer's size (spec/20_memory.md R32); a register move is always one. -/
def Move.wf : Move → Bool
  | .regRead _ => true
  | .regWrite _ _ => true
  | .bufRead b i => decide (i < b.size)
  | .bufWrite b i _ => decide (i < b.size)

end Machine
end Sys2Proof
end

