-- ==== Sys2Proof/Machine/State.lean ====
section
/-! DEFINITION. The state of one instance of the block (spec/10_state.md R10), its reset values (R25), and the reasons a
step can stop. -/

namespace Sys2Proof.Machine

/-- One buffer's bytes that have been written since the last reset: (index, byte) pairs, indexes strictly rising. An index
that is not listed has never been written since the reset and has no listed value; what the block reads there is the free
value `INIT_IBUF` or `INIT_OBUF` (R25; log 4). -/
abbrev Memory := List Host.Cell

/-- The canonical form of a buffer of `size` bytes: indexes strictly rising, all below `size`. -/
abbrev Memory.wf (size : Nat) (m : Memory) : Prop :=
  m.Pairwise (fun c d => c.1 < d.1) ∧ ∀ c ∈ m, c.1 < size

/-- `PH` (R20): five phases; the codes 5 to 7 never occur (U6). -/
inductive Phase where
  | idle
  | encScan
  | encCopy
  | encXlat
  | hshRun
deriving DecidableEq, Repr

/-- The values of `STATUS.ERR` (R16, R120); 4 to 15 never occur (U6). -/
inductive ErrCode where
  | ok
  | invalidLength
  | bufferTooSmall
  | illegalCommand
deriving DecidableEq, Repr

/-- `RSEL` (R17), the tag of an `ENC` result (R60): 0 `UNCHANGED`, 1 `CONVERTED`. -/
inductive ResultSel where
  | unchanged
  | converted
deriving DecidableEq, Repr

/-- Why a step stops with a fault. -/
inductive Fault where
  /-- A unit would access the buffer `b` at an index `i` at or above its size, where no byte exists (R5: `MemRead` and
  `MemWrite` are defined only below the size). Raised by the micro-steps of the units, in states no run reaches (R37,
  R71). Safe: the model stops. -/
  | unitIndexOutOfRange (b : Buf) (i : Nat)
deriving DecidableEq, Repr

/-- Why a step is refused. -/
inductive Refusal where
  /-- No meaning yet for the named command. Raised by `exec` only; no arm does. Safe: the model stops. -/
  | notModelled (mnemonic : String)
  /-- A window access at a reserved offset or at a width the map does not give (R33, R35, U5: "a model refuses it").
  Raised by the agenda entry `access`. Safe: the model stops. -/
  | reservedAccess (a : Access)
  /-- A buffer move whose index is at or above the buffer's size, which is "not one of these moves" (R32). Raised by the
  agenda entry `move`. Safe: the model stops. -/
  | notAMove (m : Move)
  /-- A script line uses the value of a read that the host has not made. Raised by the lines of `atomhash` standing
  alone. Safe: the model stops. -/
  | noReadValue
deriving DecidableEq, Repr

/-- The state: the tuple of R10 (`CMD` is not stored, R15), and four fields of the model's own. -/
structure State where
  /-- `IBUF` (R11). -/
  ibuf : Memory
  /-- `OBUF` (R12). -/
  obuf : Memory
  /-- `LEN` (R13). -/
  len : Count
  /-- `CAP` (R14). -/
  cap : Count
  /-- `STATUS.BUSY` (R16). -/
  busy : Bool
  /-- `STATUS.ERR` (R16). -/
  err : ErrCode
  /-- `RSEL` (R17). -/
  rsel : ResultSel
  /-- `RLEN` (R18). -/
  rlen : Count
  /-- `HASH` (R19). -/
  hash : Word
  /-- `PH` (R20). -/
  ph : Phase
  /-- `I` (R20). -/
  iCur : Count
  /-- `O` (R20). -/
  oCur : Count
  /-- `HS` (R20). -/
  hs : Buf
  /-- The model's own: what happens next, oldest first (log 1). -/
  agenda : List Event
  /-- The model's own: what the host's reads returned, newest first (log 2). -/
  returned : List Datum
  /-- The model's own: the index of the next free value drawn (log 3). -/
  draws : Nat
  /-- The model's own: how many `Reset` events there were, the index of the free buffer contents (log 4). -/
  epoch : Nat
deriving DecidableEq, Repr

/-- The state after reset (R25). `I`, `O` and `HS` have no reset value in the spec; the model names 0, 0 and the select 0
(DESIGN CHOICE, log 5). Nothing is listed in a buffer: every byte reads as a free value (log 4). The model's own fields
start empty and at 0 (DESIGN CHOICE, logs 1 to 4). -/
def State.reset : State where
  ibuf := []
  obuf := []
  len := 0
  cap := 510
  busy := false
  err := .ok
  rsel := .unchanged
  rlen := 0
  hash := 0
  ph := .idle
  iCur := 0
  oCur := 0
  hs := .ibuf
  agenda := []
  returned := []
  draws := 0
  epoch := 0

end Sys2Proof.Machine
end

