-- ==== Sys2Proof/Machine/Ops.lean ====
section
/-! DEFINITION. The named operations the meanings, the micro-steps and the host's moves share: buffer access, the drop of a
busy write, command acceptance and refusal, completion, reset. -/

namespace Sys2Proof.Machine

/-- What a step answers. -/
abbrev Result := Host.Outcome State Fault Refusal

/-- The next state, if the step has one. -/
def Result.state? : Result → Option State
  | .next s => some s
  | .fault _ => none
  | .refused _ => none

/-- Do `f`, and then `k` in the state `f` leaves; a fault or a refusal of `f` stands. -/
def Result.andThen (r : Result) (k : State → Result) : Result :=
  match r with
  | .next s => k s
  | .fault e => .fault e
  | .refused e => .refused e

/-! ### Buffers -/

/-- The byte listed at index `i`, if one is. -/
def Memory.lookup : Memory → Nat → Option Byte
  | [], _ => none
  | c :: m, i => if c.1 = i then some c.2 else Memory.lookup m i

/-- List the byte `b` at index `i`, in the place of the one that was listed there. -/
def Memory.store : Memory → Nat → Byte → Memory
  | [], i, b => [(i, b)]
  | c :: m, i, b =>
    if i < c.1 then (i, b) :: c :: m
    else if i = c.1 then (i, b) :: m
    else c :: Memory.store m i b

/-- `m[i] <- x[0]`, `m[i + 1] <- x[1]`, and so on: a byte sequence lies in index order (R31). -/
def Memory.storeSeq : Memory → Nat → List Byte → Memory
  | m, _, [] => m
  | m, i, b :: x => Memory.storeSeq (m.store i b) (i + 1) x

/-- One of two memories, by buffer. -/
def Buf.select (b : Buf) (i o : Memory) : Memory :=
  match b with
  | .ibuf => i
  | .obuf => o

/-- The storage of a buffer (R42: the two are distinct). -/
def State.cells (s : State) (b : Buf) : Memory := b.select s.ibuf s.obuf

/-- What a byte never written since the last reset reads as: `INIT_IBUF`, `INIT_OBUF` (R25, R141; log 4). -/
def initByte (epoch : Nat) : Buf → Nat → Byte
  | .ibuf, i => Config.initIbuf epoch i
  | .obuf, i => Config.initObuf epoch i

/-- The byte a buffer's storage reads as at an index: the listed byte, or the free value. -/
def readByte (m : Memory) (epoch : Nat) (b : Buf) (i : Nat) : Byte :=
  (m.lookup i).getD (initByte epoch b i)

/-- The `n` bytes a buffer's storage reads as from an index. -/
def readBytes (m : Memory) (epoch : Nat) (b : Buf) : Nat → Nat → List Byte
  | _, 0 => []
  | i, n + 1 => readByte m epoch b i :: readBytes m epoch b (i + 1) n

/-- `buf[i]` (R5). -/
def State.byteAt (s : State) (b : Buf) (i : Nat) : Byte := readByte (s.cells b) s.epoch b i

/-- `buf[i] <- v` (R5). -/
def State.setByte (s : State) (b : Buf) (i : Nat) (v : Byte) : State :=
  match b with
  | .ibuf => { s with ibuf := s.ibuf.store i v }
  | .obuf => { s with obuf := s.obuf.store i v }

/-- `buf[i..i + n)` (R5). -/
def State.slice (s : State) (b : Buf) (i n : Nat) : List Byte := readBytes (s.cells b) s.epoch b i n

/-- `buf[0..n)`: the first `n` bytes of a buffer (R31). -/
def State.bytes (s : State) (b : Buf) (n : Nat) : List Byte := s.slice b 0 n

/-- `MemRead(buf, i, 1)` by a unit: defined only below the buffer's size (R5); otherwise a fault (log 8). -/
def unitRead (s : State) (b : Buf) (i : Nat) (k : Byte → Result) : Result :=
  if i < b.size then k (s.byteAt b i) else .fault (.unitIndexOutOfRange b i)

/-- `MemWrite(buf, i, 1, v)` by a unit: defined only below the buffer's size (R5); otherwise a fault (log 8). -/
def unitWrite (s : State) (b : Buf) (i : Nat) (v : Byte) : Result :=
  if i < b.size then .next (s.setByte b i v) else .fault (.unitIndexOutOfRange b i)

/-! ### Commands -/

/-- A host write while `BUSY == 1` is dropped: no state changes (R24, R32, R130). -/
def unlessBusy (s : State) (k : Result) : Result :=
  if s.busy then .next s else k

/-- Error entry, `raise Err(code)`: `STATUS.ERR <- code`, nothing else (R125). -/
def raiseErr (code : ErrCode) (s : State) : State :=
  { s with err := code }

/-- What every acceptance does: `ERR <- 0`, `BUSY <- 1`, `I <- 0`, `PH <- phase` (R65, R88). -/
def acceptCommand (ph : Phase) (s : State) : State :=
  { s with err := .ok, busy := true, iCur := 0, ph := ph }

/-- `I`, `O` and `HS` take unspecified values, fresh draws each time (R8, R148, U3; logs 5 and 16). -/
def forgetHidden (s : State) : State :=
  { s with
    iCur := Config.hiddenI s.draws
    oCur := Config.hiddenO s.draws
    hs := if Config.hiddenHs s.draws then .obuf else .ibuf
    draws := s.draws + 1 }

/-- What every completion does: `BUSY <- 0`, `PH <- IDLE` (R66, R68, R89); what it leaves in `I`, `O` and `HS` is
unspecified (U3; log 16). -/
def completeCommand (s : State) : State :=
  { forgetHidden s with busy := false, ph := .idle }

/-! ### Reset -/

/-- The `Reset` event (R140, R141), in any phase: the registers take their reset values (R25), the buffers fresh arbitrary
contents (log 4), and `I`, `O`, `HS` unspecified values (U3; log 5). The host and the agenda are not the block's and stay
(log 6). -/
def resetEvent (s : State) : State :=
  forgetHidden { State.reset with
    agenda := s.agenda
    returned := s.returned
    draws := s.draws
    epoch := s.epoch + 1 }

end Sys2Proof.Machine
end

