-- ==== Sys2Proof/Machine/Flags.lean ====
section
/-! DEFINITION. The status word and the bits of the flags (spec/10_state.md R16, R17, R24). -/

namespace Sys2Proof.Machine

/-- The code of an outcome (R16, R120). -/
def ErrCode.code : ErrCode → BitVec 4
  | .ok => 0
  | .invalidLength => 1
  | .bufferTooSmall => 2
  | .illegalCommand => 3

/-- The bit of `RSEL` (R17). -/
def ResultSel.bit : ResultSel → BitVec 1
  | .unchanged => 0
  | .converted => 1

/-- `STATUS` (R16): `BUSY` in bit 0, `ERR` in bits 7:4, bits 3:1 and 31:8 zero. -/
def statusWord (s : State) : Word :=
  (0 : BitVec 24) ++ (s.err.code ++ ((0 : BitVec 3) ++ BitVec.ofBool s.busy))

/-- Bit 0 of a `STATUS` word: `BUSY`. -/
def statusBusy (w : Word) : Bool := w.getLsbD 0

/-- Bits 7:4 of a `STATUS` word: `ERR`. -/
def statusErr (w : Word) : BitVec 4 := w.extractLsb' 4 4

end Sys2Proof.Machine
end

