-- ==== Sys2Proof/Machine/Operands.lean ====
section
/-! DEFINITION. The operands of the commands (spec/30_encoding.md R55): the declared length and its limits, the capacity,
the sequence a command works on, and the byte tests of the two units. -/

namespace Sys2Proof.Machine

/-- `LEN` above the limit of a command (R121). -/
def lengthTooLarge (limit : Nat) (s : State) : Bool := decide (limit < s.len.toNat)

/-- `CAP < 2 * LEN`, computed without truncation (R65, R122). -/
def capacityTooSmall (s : State) : Bool := decide (s.cap.toNat < 2 * s.len.toNat)

/-- The length check every command makes first (R121, R124). -/
def withLength (limit : Nat) (s : State) (k : Result) : Result :=
  if lengthTooLarge limit s then .next (raiseErr .invalidLength s) else k

/-- The capacity check of `ENC`, made after the length check (R122, R124). -/
def withCapacity (s : State) (k : Result) : Result :=
  if capacityTooSmall s then .next (raiseErr .bufferTooSmall s) else k

/-- The sequence a command works on: the first `LEN` bytes of the buffer it reads (R22, R55). -/
def State.operand (s : State) (b : Buf) : List Byte := s.bytes b s.len.toNat

/-- A byte below 0x80, bit 7 clear (R61). -/
def isAscii (b : Byte) : Bool := decide (b < 0x80#8)

/-- `(v & 0xFE) == 0xC2`: `v` is `C2` or `C3` (R82; spec/90_conflicts.md C3). -/
def isLead (v : Byte) : Bool := decide (v &&& 0xFE#8 = 0xC2#8)

/-- `(next & 0xC0) == 0x80`: a continuation byte, 0x80 to 0xBF (R82; spec/90_conflicts.md C3). -/
def isContinuation (v : Byte) : Bool := decide (v &&& 0xC0#8 = 0x80#8)

/-- `hi(x)`: the number of bytes of `x` at or above 0x80 (R64). -/
def highCount (x : List Byte) : Nat := x.countP (fun b => !isAscii b)

end Sys2Proof.Machine
end

