-- ==== Sys2Proof/Machine/Encoder.lean ====
section
/-! DEFINITION. The encoder unit (spec/40_encoder.md): the functions `X` and `Encode`, the meaning of `ENC`, and the
micro-steps of its three phases. -/

namespace Sys2Proof.Machine

/-! ### The functions -/

/-- The first byte of a two-byte sequence, `0xC0 | (b >> 6)` (R61). -/
def leadOf (b : Byte) : Byte := 0xC0#8 ||| (b >>> 6)

/-- The second byte of a two-byte sequence, `0x80 | (b & 0x3F)` (R61). -/
def trailOf (b : Byte) : Byte := 0x80#8 ||| (b &&& 0x3F#8)

/-- `X(b)`: the translation of one byte (R61). -/
def xlat (b : Byte) : List Byte :=
  if isAscii b then [b] else [leadOf b, trailOf b]

/-- The bytes of `X(x[0]) ++ X(x[1]) ++ ...` (R60, R63). -/
def xlatAll (x : List Byte) : List Byte := x.flatMap xlat

/-- `Encode(x)` (R60): the fast path (R62) leaves the input, the slow path (R63) translates every byte. The spec defines it
for `|x| <= 255`; the Lean function is total and the statements say the bound where the block needs it (log 12). -/
def encodeName (x : List Byte) : ResultSel × List Byte :=
  if x.all isAscii then (.unchanged, x) else (.converted, xlatAll x)

/-- The index `k` of the first byte at or above 0x80 (R63, R74); the length when there is none. -/
def firstHigh (x : List Byte) : Nat := x.findIdx (fun b => !isAscii b)

/-- The number of micro-steps of an accepted `ENC` (R74). -/
def encSteps (x : List Byte) : Nat :=
  if x.all isAscii then x.length + 1 else x.length + firstHigh x + 3

/-! ### The command -/

/-- `ENC` (R65): the word was written to `CMD`. Dropped while busy (R130); refused on a length above 255 or a capacity
below `2 * LEN`; else accepted. -/
def execEnc (s : State) : Result :=
  unlessBusy s <| withLength Config.charCap s <| withCapacity s <|
    .next { acceptCommand .encScan s with oCur := 0 }

/-! ### The micro-steps -/

/-- A step in phase `ENC_SCAN` (R66). -/
def encScanStep (s : State) : Result :=
  if s.iCur = s.len then
    .next { completeCommand s with rsel := .unchanged, rlen := s.len }
  else
    unitRead s .ibuf s.iCur.toNat fun b =>
      if isAscii b then .next { s with iCur := s.iCur + 1 }
      else .next { s with ph := .encCopy }

/-- A step in phase `ENC_COPY` (R67). -/
def encCopyStep (s : State) : Result :=
  if s.oCur < s.iCur then
    unitRead s .ibuf s.oCur.toNat fun b =>
      (unitWrite s .obuf s.oCur.toNat b).andThen fun t =>
        .next { t with oCur := s.oCur + 1 }
  else
    .next { s with ph := .encXlat }

/-- A step in phase `ENC_XLAT` (R68). The two writes of a two-byte sequence take effect together (R35). -/
def encXlatStep (s : State) : Result :=
  if s.iCur = s.len then
    .next { completeCommand s with rsel := .converted, rlen := s.oCur }
  else
    unitRead s .ibuf s.iCur.toNat fun b =>
      if isAscii b then
        (unitWrite s .obuf s.oCur.toNat b).andThen fun t =>
          .next { t with oCur := s.oCur + 1, iCur := s.iCur + 1 }
      else
        (unitWrite s .obuf s.oCur.toNat (leadOf b)).andThen fun t =>
          (unitWrite t .obuf (s.oCur.toNat + 1) (trailOf b)).andThen fun u =>
            .next { u with oCur := s.oCur + 2, iCur := s.iCur + 1 }

end Sys2Proof.Machine
end

