-- ==== Sys2Proof/Machine/Hasher.lean ====
section
/-! DEFINITION. The hasher unit (spec/41_hasher.md): the functions `Units`, `Mix`, `PJW` and `Hash`, the meanings of
`HASH.I` and `HASH.O`, and the micro-step of its phase. -/

namespace Sys2Proof.Machine

/-! ### The functions -/

/-- The fold of a pair, `trunc_8((v << 6) | (next & 0x3F))` (R82): kept to 8 bits (R83; spec/90_conflicts.md C2). -/
def foldPair (v next : Byte) : Byte := (v <<< 6) ||| (next &&& 0x3F#8)

/-- `Units(x)` (R82): the greedy cut, left to right; a lead byte with no next byte is a unit of its own (R84). -/
def units : List Byte → List Byte
  | [] => []
  | [v] => [v]
  | v :: next :: rest =>
    if isLead v && isContinuation next then foldPair v next :: units rest
    else v :: units (next :: rest)

/-- `Mix(h, u)` (R85). -/
def mix (h : Word) (u : Byte) : Word :=
  let h1 := (h <<< 4) + u.setWidth 32
  let g := h1 &&& 0xF0000000#32
  if g ≠ 0 then (h1 ^^^ (g >>> 24)) ^^^ g else h1

/-- `PJW(us)`: `Mix` folded from 0 (R86). -/
def pjw (us : List Byte) : Word := us.foldl mix 0

/-- `Hash(x) = PJW(Units(x))` (R80, R86), for a sequence of any length. -/
def hashName (x : List Byte) : Word := pjw (units x)

/-- The number of micro-steps of an accepted hash command (R96). -/
def hashSteps (x : List Byte) : Nat := (units x).length + 1

/-! ### The commands -/

/-- Acceptance of a hash command with source select `src` (R88): dropped while busy (R130); refused on a length above the
buffer's size; else accepted. -/
def hashCommand (src : Buf) (s : State) : Result :=
  unlessBusy s <| withLength src.size s <|
    .next { acceptCommand .hshRun s with hs := src, hash := 0 }

/-- `HASH.I` (R88, `s = 0`). -/
def execHashI (s : State) : Result := hashCommand .ibuf s

/-- `HASH.O` (R88, `s = 1`). -/
def execHashO (s : State) : Result := hashCommand .obuf s

/-! ### The micro-step -/

/-- A unit of one byte: `HASH <- Mix(HASH, v)`, `I <- I + 1` (R89). -/
def mixSingle (v : Byte) (s : State) : State :=
  { s with hash := mix s.hash v, iCur := s.iCur + 1 }

/-- A unit of two bytes: `HASH <- Mix(HASH, u)` of the fold, `I <- I + 2` (R89). -/
def mixPair (v next : Byte) (s : State) : State :=
  { s with hash := mix s.hash (foldPair v next), iCur := s.iCur + 2 }

/-- A step in phase `HSH_RUN` (R89). `B[I + 1]` is read only when `I + 1 < LEN` and the first test holds. -/
def hashRunStep (s : State) : Result :=
  if s.iCur = s.len then
    .next (completeCommand s)
  else
    unitRead s s.hs s.iCur.toNat fun v =>
      if s.iCur.toNat + 1 < s.len.toNat ∧ isLead v then
        unitRead s s.hs (s.iCur.toNat + 1) fun next =>
          if isContinuation next then .next (mixPair v next s) else .next (mixSingle v s)
      else
        .next (mixSingle v s)

end Sys2Proof.Machine
end

