-- ==== Sys2Proof/Machine/HostMoves.lean ====
section
/-! DEFINITION. The host's side: what register and buffer reads return and what operand writes do (spec/10_state.md R24,
spec/20_memory.md R32), the window map (R33), and the host's script lines (spec/30_encoding.md R59). -/

namespace Sys2Proof.Machine

/-! ### Reads -/

/-- What `HRead(reg)` returns (R24): the value zero-extended, or nothing the spec fixes (`none`, U2) for the result
registers while busy. -/
def regValue (s : State) : Reg → Option Word
  | .cmd => some 0
  | .status => some (statusWord s)
  | .len => some (s.len.setWidth 32)
  | .cap => some (s.cap.setWidth 32)
  | .rsel => if s.busy then none else some (s.rsel.bit.setWidth 32)
  | .rlen => if s.busy then none else some (s.rlen.setWidth 32)
  | .hash => if s.busy then none else some s.hash

/-- What `HBufRead(buf, i)` returns (R32): the byte, or nothing the spec fixes (`none`, U2) while busy. -/
def bufValue (s : State) (b : Buf) (i : Nat) : Option Byte :=
  if s.busy then none else some (s.byteAt b i)

/-- The host receives a value (log 2). -/
def State.receive (s : State) (d : Datum) : State :=
  { s with returned := d :: s.returned }

/-- `HRead(reg)`: the value, or a fresh free value where the spec fixes none (U2; log 3). No block state changes. -/
def hostRegRead (r : Reg) (s : State) : State :=
  match regValue s r with
  | some w => s.receive (.word w)
  | none => { s.receive (.word (Config.busyWord s.draws)) with draws := s.draws + 1 }

/-- `HBufRead(buf, i)`, as `hostRegRead`. -/
def hostBufRead (b : Buf) (i : Nat) (s : State) : State :=
  match bufValue s b i with
  | some v => s.receive (.byte v)
  | none => { s.receive (.byte (Config.busyByte s.draws)) with draws := s.draws + 1 }

/-! ### Writes -/

/-- `HWrite(reg, v)` for every register but `CMD` (R24): `LEN` and `CAP` take bits 9:0 when idle and drop the write while
busy; a write of a read-only register is ignored. `CMD` writes are commands (`commandWrite`). -/
def hostRegWrite (r : Reg) (v : Word) (s : State) : State :=
  match r with
  | .len => if s.busy then s else { s with len := v.extractLsb' 0 10 }
  | .cap => if s.busy then s else { s with cap := v.extractLsb' 0 10 }
  | .cmd => s
  | .status => s
  | .rsel => s
  | .rlen => s
  | .hash => s

/-- `HBufWrite(buf, i, v)` (R32): dropped while busy. -/
def hostBufWrite (b : Buf) (i : Nat) (v : Byte) (s : State) : State :=
  if s.busy then s else s.setByte b i v

/-! ### The window map -/

/-- The offset of a register (R24, R33). -/
def Reg.offset : Reg → Nat
  | .cmd => 0x000
  | .status => 0x004
  | .len => 0x008
  | .cap => 0x00C
  | .rsel => 0x010
  | .rlen => 0x014
  | .hash => 0x018

/-- The offset of a buffer's byte 0 (R33). -/
def Buf.offset : Buf → Nat
  | .ibuf => 0x100
  | .obuf => 0x200

/-- The register at an offset, if one is there (R33). -/
def regAt (off : Nat) : Option Reg :=
  [Reg.cmd, .status, .len, .cap, .rsel, .rlen, .hash].find? (fun r => r.offset == off)

/-- The buffer byte at an offset, if one is there: 0x100 to 0x1FE and 0x200 to 0x3FD (R33). -/
def bufAt (off : Nat) : Option (Buf × Nat) :=
  if 0x100 ≤ off ∧ off < 0x100 + Buf.ibuf.size then some (.ibuf, off - 0x100)
  else if 0x200 ≤ off ∧ off < 0x200 + Buf.obuf.size then some (.obuf, off - 0x200)
  else none

/-- The move a window access stands for (R33, R35): registers by 32 bits, buffer bytes by 8; every other access is
none. -/
def Access.toMove : Access → Option Move
  | .load8 off => (bufAt off).map fun p => .bufRead p.1 p.2
  | .load16 _ => none
  | .load32 off => (regAt off).map fun r => .regRead r
  | .store8 off v => (bufAt off).map fun p => .bufWrite p.1 p.2 v
  | .store16 _ _ => none
  | .store32 off v => (regAt off).map fun r => .regWrite r v

/-! ### Script lines -/

/-- Whether an agenda entry is a line of the host's script; the others are the unit's turn and the platform's reset. -/
def Event.isHostLine : Event → Bool
  | .move _ => true
  | .access _ => true
  | .unitStep => false
  | .reset => false
  | .wait => true
  | .stopOnError => true
  | .lenFromRead => true
  | .hashFromRead => true

/-- The host issues no more moves (log 10). -/
def hostStops (s : State) : State :=
  { s with agenda := s.agenda.filter (fun e => !e.isHostLine) }

/-- `rd STATUS (stop if ERR != 0)` (R59). -/
def stopOnErrorLine (s : State) : State :=
  let t := hostRegRead .status s
  if statusErr (statusWord s) ≠ 0 then hostStops t else t

/-- `wr r, n` -/
def Script.wr (r : Reg) (n : Word) : Event := .move (.regWrite r n)

/-- `wb buf[i], b` -/
def Script.wb (b : Buf) (i : Nat) (v : Byte) : Event := .move (.bufWrite b i v)

/-- `cmd.w w`, any word (R59); `cmd ENC` is `cmdw 0x00000001`, and so on. -/
def Script.cmdw (w : Word) : Event := .move (.regWrite .cmd w)

/-- `rd r` -/
def Script.rd (r : Reg) : Event := .move (.regRead r)

/-- `rb buf[i]` -/
def Script.rb (b : Buf) (i : Nat) : Event := .move (.bufRead b i)

/-- The byte writes of `load`, from index `i`. -/
def Script.wbs (b : Buf) : Nat → List Byte → List Event
  | _, [] => []
  | i, v :: x => Script.wb b i v :: Script.wbs b (i + 1) x

/-- `load buf, b0 b1 ... b(n-1)` (R59): the bytes, then `wr LEN, n`. -/
def Script.load (b : Buf) (x : List Byte) : List Event :=
  Script.wbs b 0 x ++ [Script.wr .len (BitVec.ofNat 32 x.length)]

/-- `atomhash` (R59): encode, wait, stop on an error, read `RSEL` and `RLEN`, write `LEN <- RLEN`, hash the buffer `RSEL`
names, wait, read `HASH`. -/
def Script.atomhash : List Event :=
  [Script.cmdw 0x00000001, .wait, .stopOnError, Script.rd .rsel, Script.rd .rlen, .lenFromRead, .hashFromRead, .wait,
    Script.rd .hash]

end Sys2Proof.Machine
end

