-- ==== Sys2Proof/Machine/Units.lean ====
section
/-! DEFINITION. The sequencer (spec/10_state.md R20): one micro-step of the unit whose phase `PH` names. -/

namespace Sys2Proof.Machine

/-- One micro-step, by phase (R66, R67, R68, R89). In `IDLE` no unit has a step enabled and the state stays (R148;
log 1). -/
def unitStep (s : State) : Result :=
  match s.ph with
  | .idle => .next s
  | .encScan => encScanStep s
  | .encCopy => encCopyStep s
  | .encXlat => encXlatStep s
  | .hshRun => hashRunStep s

end Sys2Proof.Machine
end

