-- ==== Sys2Proof/Machine/Events.lean ====
section
/-! DEFINITION. What each entry of the agenda does. -/

namespace Sys2Proof.Machine

/-- A write of `CMD` (R15): dropped without decoding while busy (R130); else the word is decoded, and the command runs
its acceptance or the illegal word raises `ILLEGAL_COMMAND` (R123). -/
def commandWrite (w : Word) (s : State) : Result :=
  unlessBusy s <|
    match decode w with
    | .ok i => exec i s
    | .error _ => .next (raiseErr .illegalCommand s)

/-- A host move (R24, R32); a buffer move with an index outside the buffer is none and is refused (log 11). -/
def runMove (m : Move) (s : State) : Result :=
  if m.wf then
    match m with
    | .regRead r => .next (hostRegRead r s)
    | .regWrite .cmd w => commandWrite w s
    | .regWrite r v => .next (hostRegWrite r v s)
    | .bufRead b i => .next (hostBufRead b i s)
    | .bufWrite b i v => .next (hostBufWrite b i v s)
  else .refused (.notAMove m)

/-- A window access (R33): the move it stands for, or a refusal where it stands for none (U5; log 11). -/
def runAccess (a : Access) (s : State) : Result :=
  match a.toMove with
  | some m => runMove m s
  | none => .refused (.reservedAccess a)

/-- `wait` (R59): while busy the unit steps and the host goes on polling; the read that finds `BUSY == 0` ends the line
(log 9). -/
def runWait (s : State) : Result :=
  if s.busy then unitStep { s with agenda := .wait :: s.agenda } else .next (hostRegRead .status s)

/-- `wr LEN, n` with `n` what the newest read returned (R59; log 10). -/
def runLenFromRead (s : State) : Result :=
  match s.returned with
  | .word n :: _ => runMove (.regWrite .len n) s
  | _ => .refused .noReadValue

/-- `if s == 0 then cmd HASH.I else cmd HASH.O` with `s` what the read before the newest returned (R59; log 10). -/
def runHashFromRead (s : State) : Result :=
  match s.returned with
  | _ :: .word v :: _ => commandWrite (if v = 0 then 0x00000002#32 else 0x00000102#32) s
  | _ => .refused .noReadValue

/-- One entry of the agenda, in the state from which the entry has been taken off. -/
def runEvent (e : Event) (s : State) : Result :=
  match e with
  | .move m => runMove m s
  | .access a => runAccess a s
  | .unitStep => unitStep s
  | .reset => .next (resetEvent s)
  | .wait => runWait s
  | .stopOnError => .next (stopOnErrorLine s)
  | .lenFromRead => runLenFromRead s
  | .hashFromRead => runHashFromRead s

/-- The next transition: the oldest entry of the agenda, or, when the agenda is empty, the busy unit's micro-step
(log 1). -/
def nextTransition (s : State) : Result :=
  match s.agenda with
  | [] => unitStep s
  | e :: rest => runEvent e { s with agenda := rest }

/-- `s` with a host write of `CMD` as the very next transition (log 13). -/
def withCommandWord (w : Word) (s : State) : State :=
  { s with agenda := Script.cmdw w :: s.agenda }

end Sys2Proof.Machine
end

