-- ==== Sys2Proof/Machine/Step.lean ====
section
/-! DEFINITION. One step of the machine, and how a command word is placed for it. -/

namespace Sys2Proof.Machine

/-- One step: one host move, one micro-step or one reset event (spec/70_reset_and_hazards.md R148). -/
def step (s : State) : Host.Outcome State Fault Refusal := nextTransition s

/-- `s` with the table's word written to `CMD` by the very next step; a word of more than 32 bits is no command word and
places nothing (log 13). -/
def State.withFetchWord (s : State) (nbits w : Nat) : State :=
  match tableWord nbits w with
  | some v => withCommandWord v s
  | none => s

end Sys2Proof.Machine
end

