-- ==== Sys2Proof/Safety.lean ====
section
/-! DEFINITION. What counts as a safe state and a finished run, and the vocabulary of the statements: the invariant of the
machine (spec/40_encoder.md R71, spec/41_hasher.md R92, spec/10_state.md R16 and R20), the result of an `ENC` (R17),
and what two states have in common. -/

namespace Sys2Proof.Machine

/-! ### The invariant -/

/-- What an accepted `ENC` has been checked for, and what its operands stay (R65, R71, R120). -/
structure EncAccepted (s : State) : Prop where
  err_ok : s.err = .ok
  len_le : s.len.toNat ≤ Config.charCap
  cap_ge : 2 * s.len.toNat ≤ s.cap.toNat

/-- R71, `ENC_SCAN`. -/
structure ScanInv (s : State) : Prop extends EncAccepted s where
  i_le : s.iCur.toNat ≤ s.len.toNat
  o_zero : s.oCur = 0
  scanned : (s.bytes .ibuf s.iCur.toNat).all isAscii = true

/-- R71, `ENC_COPY`. -/
structure CopyInv (s : State) : Prop extends EncAccepted s where
  i_lt : s.iCur.toNat < s.len.toNat
  high : isAscii (s.byteAt .ibuf s.iCur.toNat) = false
  scanned : (s.bytes .ibuf s.iCur.toNat).all isAscii = true
  o_le : s.oCur.toNat ≤ s.iCur.toNat
  copied : s.bytes .obuf s.oCur.toNat = s.bytes .ibuf s.oCur.toNat

/-- R71, `ENC_XLAT`; the last clause says that the run is on the slow path. -/
structure XlatInv (s : State) : Prop extends EncAccepted s where
  i_le : s.iCur.toNat ≤ s.len.toNat
  written : s.bytes .obuf s.oCur.toNat = xlatAll (s.bytes .ibuf s.iCur.toNat)
  o_eq : s.oCur.toNat = s.iCur.toNat + highCount (s.bytes .ibuf s.iCur.toNat)
  slow : (s.operand .ibuf).all isAscii = false

/-- The hasher's run (R88, R89): the units not yet mixed, mixed into the accumulator, give the hash of the operand. -/
structure HashInv (s : State) : Prop where
  err_ok : s.err = .ok
  len_le : s.len.toNat ≤ s.hs.size
  i_le : s.iCur.toNat ≤ s.len.toNat
  rest : (units (s.slice s.hs s.iCur.toNat (s.len.toNat - s.iCur.toNat))).foldl mix s.hash
    = hashName (s.operand s.hs)

/-- What holds in each phase. -/
def PhaseInv (s : State) : Prop :=
  match s.ph with
  | .idle => True
  | .encScan => ScanInv s
  | .encCopy => CopyInv s
  | .encXlat => XlatInv s
  | .hshRun => HashInv s

/-- The invariant of the machine. -/
structure Invariant (s : State) : Prop where
  /-- The buffers keep their canonical form. -/
  ibuf_wf : Memory.wf Buf.ibuf.size s.ibuf
  obuf_wf : Memory.wf Buf.obuf.size s.obuf
  /-- `BUSY == 1` exactly when `PH != IDLE` (R16). -/
  busy_iff : s.busy = true ↔ s.ph ≠ .idle
  /-- Bits 31:28 of `HASH` are 0 (R19, R92). -/
  hash_lt : s.hash.toNat < 2 ^ 28
  /-- `RLEN <= 510` (R18). -/
  rlen_le : s.rlen.toNat ≤ Config.byteCap
  phase : PhaseInv s

/-! ### Runs -/

/-- A run has ended: the host has issued its last move and `PH == IDLE` (R148). -/
def Ended (s : State) : Prop := s.agenda = [] ∧ s.ph = .idle

/-- `n` steps from `s` lead to `t`, none of them a fault or a refusal. -/
def RunsTo : Nat → State → State → Prop
  | 0, s, t => s = t
  | n + 1, s, t => ∃ u, step s = .next u ∧ RunsTo n u t

/-- `t` differs from `s` at most in what the host has issued and received: no state of R10 differs. -/
def SameBlock (s t : State) : Prop :=
  t = { s with agenda := t.agenda, returned := t.returned, draws := t.draws }

/-- `t` differs from `s` at most in `I`, `O` and `HS`, which hold any value after a completion (U3; log 16), and in the
model's counter of draws. -/
def SameButHidden (s t : State) : Prop :=
  t = { s with iCur := t.iCur, oCur := t.oCur, hs := t.hs, draws := t.draws }

/-- The operands of a command are in `t` what they are in `s`: `LEN`, `CAP`, every byte of `IBUF`. -/
def SameOperands (s t : State) : Prop :=
  t.len = s.len ∧ t.cap = s.cap ∧ ∀ j, t.byteAt .ibuf j = s.byteAt .ibuf j

/-- Every byte of the buffer `b` at index `start` and above reads in `t` as it reads in `s`. -/
def SameFrom (b : Buf) (start : Nat) (s t : State) : Prop :=
  ∀ j, start ≤ j → t.byteAt b j = s.byteAt b j

/-- The state after the oldest agenda entry has been taken off. -/
def State.popped (s : State) : State := { s with agenda := s.agenda.tail }

/-- The word the next transition presents to `CMD`, if it is a write of `CMD`: by the register move, by a 32-bit store at
the window's offset 0x000 (R33), or by the hash line of `atomhash` (R59). -/
def State.presentedWord (s : State) : Option Word :=
  match s.agenda with
  | .move (.regWrite .cmd w) :: _ => some w
  | .access (.store32 0x000 w) :: _ => some w
  | .hashFromRead :: _ =>
    match s.returned with
    | _ :: .word v :: _ => some (if v = 0 then 0x00000002#32 else 0x00000102#32)
    | _ => none
  | _ => none

/-- Whether the next transition is the unit's: the agenda is empty, its oldest entry is the unit's turn, or the host waits
on a busy block. -/
def State.unitTurn (s : State) : Bool :=
  match s.agenda with
  | [] => true
  | .unitStep :: _ => true
  | .wait :: _ => s.busy
  | _ => false

/-- The state in which the unit takes its turn: a turn entry has been taken off, a `wait` line stays. -/
def State.turnState (s : State) : State :=
  match s.agenda with
  | .unitStep :: rest => { s with agenda := rest }
  | _ => s

/-- Whether the next transition is the `Reset` event. -/
def State.resetTurn (s : State) : Bool :=
  match s.agenda with
  | .reset :: _ => true
  | _ => false

/-! ### Results -/

/-- The phases of the encoder unit (R20). -/
def Phase.isEnc : Phase → Bool
  | .idle => false
  | .encScan => true
  | .encCopy => true
  | .encXlat => true
  | .hshRun => false

/-- The word of a hash command with a given source select (R52). -/
def Buf.hashInstr : Buf → Instr
  | .ibuf => .hashI
  | .obuf => .hashO

/-- The buffer that holds the result of the last `ENC` (R17). -/
def ResultSel.buf : ResultSel → Buf
  | .unchanged => .ibuf
  | .converted => .obuf

/-- The result of the last `ENC` (R17): the tag, and the first `RLEN` bytes of the buffer it names. -/
def State.encResult (s : State) : ResultSel × List Byte :=
  (s.rsel, s.bytes s.rsel.buf s.rlen.toNat)

/-- `x` has a fold pattern (R108): some `C2` or `C3` is followed by a continuation byte. -/
def hasFoldPattern : List Byte → Bool
  | [] => false
  | [_] => false
  | v :: next :: rest => (isLead v && isContinuation next) || hasFoldPattern (next :: rest)

end Sys2Proof.Machine
end

