-- ==== Sys2Proof/Certificates/Slice0/Obligations.lean ====
section
/-! DEFINITION. The statements about the model, for the provers. Each cites the rule of spec/ it rests on; where one rests
on a choice of the model, its docstring names the log entry. -/

open Sys2Proof Sys2Proof.Machine

/-! ### Encoding -/

/-- R51: the three fields of a command word, as numbers. -/
def Obligations.CommandWordFields : Prop :=
  ∀ w : Word,
    (opcField w).toNat = w.toNat % 2 ^ 8 ∧
    (srcField w).toNat = w.toNat / 2 ^ 8 % 2 ∧
    (zeroField w).toNat = w.toNat / 2 ^ 9

/-- R52: the opcode map; a word selects a command exactly when `(w & mask) == match`; and the two hash commands are one
operation with match 0x00000002 and mask 0xFFFFFEFF. -/
def Obligations.WordSelectsByMaskAndMatch : Prop :=
  (∀ (w : Word) (i : Instr), decode w = .ok i ↔ w &&& i.maskWord = i.matchWord) ∧
  (∀ w : Word, (decode w = .ok .hashI ∨ decode w = .ok .hashO) ↔ w &&& 0xFFFFFEFF#32 = 0x00000002#32) ∧
  (∀ i : Instr, i.maskWord = 0xFFFFFFFF#32 ∧
    (i.matchWord, opcField i.matchWord, srcField i.matchWord) ∈
      (match i with
        | .enc => [(0x00000001#32, 0x01#8, 0#1)]
        | .hashI => [(0x00000002#32, 0x02#8, 0#1)]
        | .hashO => [(0x00000102#32, 0x02#8, 1#1)]))

/-- R53 and R52: decoding and encoding agree in both directions, so exactly three words are legal. -/
def Obligations.DecodeIffEncoded : Prop :=
  (∀ (w : Word) (i : Instr), decode w = .ok i ↔ w = encode i) ∧
  (∀ w : Word, (∃ i, decode w = .ok i) ↔ w = 0x00000001#32 ∨ w = 0x00000002#32 ∨ w = 0x00000102#32)

/-- R54: which words are illegal, by field, and that one written while idle raises `ILLEGAL_COMMAND` and changes nothing
but `STATUS.ERR`. -/
def Obligations.IllegalWordsByField : Prop :=
  ∀ w : Word,
    ((∃ e, decode w = .error e) ↔
      opcField w = 0x00 ∨ 0x03 ≤ (opcField w).toNat ∨ (opcField w = 0x01 ∧ srcField w = 1) ∨ zeroField w ≠ 0) ∧
    ((∃ e, decode w = .error e) → ∀ s : State, s.busy = false → s.presentedWord = some w →
      step s = .next { s.popped with err := .illegalCommand })

/-- 95_test_vectors.md section 4.1: words written out bit by bit from the format of R50. -/
def Obligations.WrittenOutWordsDecode : Prop :=
  decode 0b00000000000000000000000_0_00000001#32 = .ok .enc ∧
  decode 0b00000000000000000000000_0_00000010#32 = .ok .hashI ∧
  decode 0b00000000000000000000000_1_00000010#32 = .ok .hashO

/-- R15, R50: a command word that reaches `CMD` and decodes to `i` runs `exec` of `i`, in the state from which the host's
line has been taken off; so does the word that `withFetchWord` places. (While busy both drop it.) -/
def Obligations.StepRunsDecodedCommand : Prop :=
  (∀ (s : State) (w : Word) (i : Instr), s.presentedWord = some w → decode w = .ok i →
    step s = exec i s.popped) ∧
  (∀ (s : State) (nbits w : Nat) (i : Instr), decodeTableWord nbits w = some i →
    step (s.withFetchWord nbits w) = exec i s)

/-! ### Acceptance and refusal -/

/-- R65: acceptance of `ENC`, as the meaning of the command and as what the write of its word does. -/
def Obligations.EncAcceptance : Prop :=
  (∀ s : State, s.busy = false →
    exec .enc s =
      if 255 < s.len.toNat then .next { s with err := .invalidLength }
      else if s.cap.toNat < 2 * s.len.toNat then .next { s with err := .bufferTooSmall }
      else .next { s with err := .ok, busy := true, iCur := 0, oCur := 0, ph := .encScan }) ∧
  (∀ s : State, s.busy = false → s.presentedWord = some 0x00000001#32 → step s = exec .enc s.popped)

/-- R88: acceptance of the hash commands, as the meanings of the commands and as what the writes of their words do. -/
def Obligations.HashAcceptance : Prop :=
  (∀ s : State, s.busy = false →
    (exec .hashI s =
      if 255 < s.len.toNat then .next { s with err := .invalidLength }
      else .next { s with err := .ok, busy := true, hs := .ibuf, iCur := 0, hash := 0, ph := .hshRun }) ∧
    (exec .hashO s =
      if 510 < s.len.toNat then .next { s with err := .invalidLength }
      else .next { s with err := .ok, busy := true, hs := .obuf, iCur := 0, hash := 0, ph := .hshRun })) ∧
  (∀ s : State, s.busy = false →
    (s.presentedWord = some 0x00000002#32 → step s = exec .hashI s.popped) ∧
    (s.presentedWord = some 0x00000102#32 → step s = exec .hashO s.popped))

/-- The frame of the three commands: what writing one to `CMD` leaves unchanged (R65, R88, R125, R130). -/
def Obligations.CommandFrame : Prop :=
  ∀ (i : Instr) (s t : State), exec i s = .next t →
    (∀ b j, t.byteAt b j = s.byteAt b j) ∧
    t.len = s.len ∧ t.cap = s.cap ∧ t.rsel = s.rsel ∧ t.rlen = s.rlen ∧
    t.agenda = s.agenda ∧ t.returned = s.returned ∧ t.draws = s.draws ∧
    (i = .enc → t.hash = s.hash ∧ t.hs = s.hs) ∧
    (i = .hashI ∨ i = .hashO → t.oCur = s.oCur) ∧
    (t.err ≠ .ok → t = { s with err := t.err }) ∧
    (s.busy = true → t = s)

/-- R121: a command word written while idle raises `INVALID_LENGTH` exactly when it is `ENC` with `LEN > 255`, `HASH.I`
with `LEN > 255` or `HASH.O` with `LEN > 510`. -/
def Obligations.InvalidLengthExactly : Prop :=
  ∀ (s : State) (w : Word), s.busy = false → s.presentedWord = some w →
    ∃ t, step s = .next t ∧
      (t.err = .invalidLength ↔
        (w = 0x00000001#32 ∧ 255 < s.len.toNat) ∨ (w = 0x00000002#32 ∧ 255 < s.len.toNat) ∨
        (w = 0x00000102#32 ∧ 510 < s.len.toNat))

/-- R122: a command word written while idle raises `BUFFER_TOO_SMALL` exactly when it is `ENC` with `LEN <= 255` and
`CAP < 2 * LEN`, whatever the bytes of the input are. -/
def Obligations.BufferTooSmallExactly : Prop :=
  ∀ (s : State) (w : Word), s.busy = false → s.presentedWord = some w →
    ∃ t, step s = .next t ∧
      (t.err = .bufferTooSmall ↔
        w = 0x00000001#32 ∧ s.len.toNat ≤ 255 ∧ s.cap.toNat < 2 * s.len.toNat)

/-- R123: a command word written while idle raises `ILLEGAL_COMMAND` exactly when it is not one of the three. -/
def Obligations.IllegalCommandExactly : Prop :=
  ∀ (s : State) (w : Word), s.busy = false → s.presentedWord = some w →
    ∃ t, step s = .next t ∧
      (t.err = .illegalCommand ↔ ¬ (w = 0x00000001#32 ∨ w = 0x00000002#32 ∨ w = 0x00000102#32))

/-- R125, R126: every decoded command word writes `STATUS.ERR`; when it writes a code, nothing else of the block changes,
`BUSY` stays 0; when it writes 0 the command runs, `BUSY` is 1. -/
def Obligations.ErrorEntryChangesOnlyErr : Prop :=
  ∀ (s : State) (w : Word), s.busy = false → s.presentedWord = some w →
    ∃ t, step s = .next t ∧
      (t.err ≠ .ok → t = { s.popped with err := t.err }) ∧
      (t.err = .ok ↔ t.busy = true)

/-- R124: one word raises at most one condition, in the order decode, length, capacity; while busy it is dropped before
any check. -/
def Obligations.ErrorPriority : Prop :=
  ∀ (s : State) (w : Word), s.presentedWord = some w →
    (s.busy = true → step s = .next s.popped) ∧
    (s.busy = false → ∃ t, step s = .next t ∧
      ((∃ e, decode w = .error e) → t.err = .illegalCommand) ∧
      (∀ i, decode w = .ok i → (if i = .hashO then 510 else 255) < s.len.toNat → t.err = .invalidLength) ∧
      (decode w = .ok .enc → s.len.toNat ≤ 255 → s.cap.toNat < 2 * s.len.toNat → t.err = .bufferTooSmall) ∧
      (∀ i, decode w = .ok i → s.len.toNat ≤ (if i = .hashO then 510 else 255) →
        (i = .enc → 2 * s.len.toNat ≤ s.cap.toNat) → t.err = .ok))

/-- R14: above 510 the value of `CAP` makes no difference to what `ENC` does. -/
def Obligations.CapAboveByteCapIsByteCap : Prop :=
  ∀ (s : State) (c : Count), 510 ≤ c.toNat →
    exec .enc { s with cap := c } =
      (show Result from exec .enc { s with cap := 510#10 }).andThen fun t => .next { t with cap := c }

/-! ### Micro-steps -/

/-- When the turn is the unit's, a step is one micro-step of the phase (R147, R148; the agenda is the model's own, log 1,
and so is the pace of a `wait` line, log 9). -/
def Obligations.UnitTurnIsMicroStep : Prop :=
  ∀ s : State, s.unitTurn = true → step s = unitStep s.turnState

/-- R66: a step in phase `ENC_SCAN`. What the completion leaves in `I`, `O` and `HS` is not said (U3). -/
def Obligations.ScanStep : Prop :=
  ∀ s : State, s.ph = .encScan → s.iCur.toNat ≤ s.len.toNat → s.len.toNat ≤ 255 →
    (s.iCur = s.len → ∃ t, unitStep s = .next t ∧
      SameButHidden { s with rsel := .unchanged, rlen := s.len, busy := false, ph := .idle } t) ∧
    (s.iCur ≠ s.len → unitStep s =
      if s.byteAt .ibuf s.iCur.toNat < 0x80#8 then .next { s with iCur := s.iCur + 1 }
      else .next { s with ph := .encCopy })

/-- R67: a step in phase `ENC_COPY`, and what holds on entry to the phase: `O` is 0 and `I` is the index of the first byte
at or above 0x80. -/
def Obligations.CopyStep : Prop :=
  (∀ s : State, s.ph = .encCopy → s.iCur.toNat ≤ s.len.toNat → s.len.toNat ≤ 255 →
    unitStep s =
      if s.oCur.toNat < s.iCur.toNat then
        .next { s.setByte .obuf s.oCur.toNat (s.byteAt .ibuf s.oCur.toNat) with oCur := s.oCur + 1 }
      else .next { s with ph := .encXlat }) ∧
  (∀ s t : State, Invariant s → s.ph = .encScan → unitStep s = .next t → t.ph = .encCopy →
    t.oCur = 0 ∧ t.iCur.toNat < t.len.toNat ∧ 0x80#8 ≤ t.byteAt .ibuf t.iCur.toNat ∧
    ∀ j, j < t.iCur.toNat → t.byteAt .ibuf j < 0x80#8)

/-- R68: a step in phase `ENC_XLAT`, and what holds on entry to the phase: `I` is below `LEN` and is the index of the
first byte at or above 0x80. What the completion leaves in `I`, `O` and `HS` is not said (U3). -/
def Obligations.XlatStep : Prop :=
  (∀ s : State, s.ph = .encXlat → s.iCur.toNat ≤ s.len.toNat → s.len.toNat ≤ 255 →
    s.oCur.toNat ≤ 2 * s.iCur.toNat →
    (s.iCur = s.len → ∃ t, unitStep s = .next t ∧
      SameButHidden { s with rsel := .converted, rlen := s.oCur, busy := false, ph := .idle } t) ∧
    (s.iCur ≠ s.len → unitStep s =
      let b := s.byteAt .ibuf s.iCur.toNat
      if b < 0x80#8 then
        .next { s.setByte .obuf s.oCur.toNat b with oCur := s.oCur + 1, iCur := s.iCur + 1 }
      else
        .next { (s.setByte .obuf s.oCur.toNat (0xC0#8 ||| (b >>> 6))).setByte .obuf (s.oCur.toNat + 1)
                  (0x80#8 ||| (b &&& 0x3F#8)) with
                oCur := s.oCur + 2, iCur := s.iCur + 1 })) ∧
  (∀ s t : State, Invariant s → s.ph = .encCopy → unitStep s = .next t → t.ph = .encXlat →
    t.iCur.toNat < t.len.toNat ∧ 0x80#8 ≤ t.byteAt .ibuf t.iCur.toNat ∧
    ∀ j, j < t.iCur.toNat → t.byteAt .ibuf j < 0x80#8)

/-- R89: a step in phase `HSH_RUN`. What the completion leaves in `I`, `O` and `HS` is not said (U3). -/
def Obligations.HashRunStep : Prop :=
  ∀ s : State, s.ph = .hshRun → s.iCur.toNat ≤ s.len.toNat → s.len.toNat ≤ s.hs.size →
    (s.iCur = s.len → ∃ t, unitStep s = .next t ∧ SameButHidden { s with busy := false, ph := .idle } t) ∧
    (s.iCur ≠ s.len → unitStep s =
      let v := s.byteAt s.hs s.iCur.toNat
      let next := s.byteAt s.hs (s.iCur.toNat + 1)
      if s.iCur.toNat + 1 < s.len.toNat ∧ v &&& 0xFE#8 = 0xC2#8 ∧ next &&& 0xC0#8 = 0x80#8 then
        .next { s with
          hash := mix s.hash (BitVec.ofNat 8 (v.toNat * 2 ^ 6 ||| (next &&& 0x3F#8).toNat)), iCur := s.iCur + 2 }
      else
        .next { s with hash := mix s.hash v, iCur := s.iCur + 1 })

/-- R20: the phase moves along its three paths only, or is reset; while a unit runs, up to but not with its completion
step, the cursor `I` moves forward by at most 2 and never past `LEN`. -/
def Obligations.PhasePaths : Prop :=
  ∀ s t : State, Invariant s → s.resetTurn = false → step s = .next t →
    (t.ph = s.ph ∨ (s.ph, t.ph) ∈
      [(Phase.idle, Phase.encScan), (Phase.encScan, Phase.idle), (Phase.encScan, Phase.encCopy),
       (Phase.encCopy, Phase.encXlat), (Phase.encXlat, Phase.idle), (Phase.idle, Phase.hshRun),
       (Phase.hshRun, Phase.idle)]) ∧
    (s.ph ≠ .idle → t.ph ≠ .idle → s.iCur.toNat ≤ t.iCur.toNat ∧ t.iCur.toNat ≤ s.iCur.toNat + 2 ∧
      t.iCur.toNat ≤ t.len.toNat)

/-! ### Who writes what -/

/-- R126: `STATUS.ERR` is written by the decode of a command word while idle and by reset, by nothing else. -/
def Obligations.OnlyDecodeOrResetWritesErr : Prop :=
  ∀ s t : State, step s = .next t → t.err ≠ s.err →
    s.resetTurn = true ∨ (s.busy = false ∧ s.presentedWord.isSome = true)

/-- R19: `HASH` is written by the acceptance of a hash command, by the hasher's steps and by reset, by nothing else. -/
def Obligations.OnlyHasherWritesHash : Prop :=
  ∀ s t : State, step s = .next t → t.hash ≠ s.hash →
    s.resetTurn = true ∨
    (s.busy = false ∧ (s.presentedWord = some 0x00000002#32 ∨ s.presentedWord = some 0x00000102#32)) ∨
    (s.unitTurn = true ∧ s.ph = .hshRun)

/-- R17, R18: `RSEL` and `RLEN` are written by the completion step of `ENC` (and reset), by nothing else. -/
def Obligations.OnlyEncCompletionWritesResult : Prop :=
  ∀ s t : State, step s = .next t → t.rsel ≠ s.rsel ∨ t.rlen ≠ s.rlen →
    s.resetTurn = true ∨
    (s.unitTurn = true ∧ (s.ph = .encScan ∨ s.ph = .encXlat) ∧ s.iCur = s.len ∧ t.ph = .idle ∧ t.busy = false)

/-- R11, R13, R14: `IBUF`, `LEN` and `CAP` change only while idle and by a move of the host, or by reset; no unit and no
command writes them. -/
def Obligations.OnlyHostWritesOperands : Prop :=
  ∀ s t : State, step s = .next t → ¬ SameOperands s t →
    s.resetTurn = true ∨ (s.busy = false ∧ s.unitTurn = false ∧ s.presentedWord = none)

/-- R12: `OBUF` changes only by the encoder's copy and translate steps, by a move of the idle host, or by reset. -/
def Obligations.OnlySlowPathOrHostWritesObuf : Prop :=
  ∀ s t : State, step s = .next t → ¬ SameFrom .obuf 0 s t →
    s.resetTurn = true ∨ (s.busy = false ∧ s.unitTurn = false ∧ s.presentedWord = none) ∨
    (s.unitTurn = true ∧ (s.ph = .encCopy ∨ s.ph = .encXlat))

/-- R37, R71: a unit writes no byte of `IBUF`, and no byte of `OBUF` at an index at or above `2 * LEN`, which is at most
`CAP` and at most 510. -/
def Obligations.UnitsWriteWithinCap : Prop :=
  ∀ s t : State, Invariant s → s.unitTurn = true → step s = .next t →
    ∀ b j, t.byteAt b j ≠ s.byteAt b j →
      b = .obuf ∧ j < 2 * s.len.toNat ∧ 2 * s.len.toNat ≤ s.cap.toNat ∧ 2 * s.len.toNat ≤ 510

/-- R36, R37, R72, R84: an encoder step reads only `IBUF` below `LEN`, a hasher step only the selected buffer below `LEN`:
two states that agree there, whatever else their buffers hold, go on with the same registers and write the same bytes. -/
def Obligations.UnitsReadOnlyBelowLen : Prop :=
  ∀ (s s' : State) (mi mo : Memory), Invariant s → s.ph ≠ .idle → s' = { s with ibuf := mi, obuf := mo } →
    (s.ph.isEnc = true → ∀ j, j < s.len.toNat → s'.byteAt .ibuf j = s.byteAt .ibuf j) →
    (s.ph = .hshRun → ∀ j, j < s.len.toNat → s'.byteAt s.hs j = s.byteAt s.hs j) →
    ∃ t t', unitStep s = .next t ∧ unitStep s' = .next t' ∧
      { t' with ibuf := t.ibuf, obuf := t.obuf } = t ∧
      ∀ b j, t'.byteAt b j = t.byteAt b j ∨ (t'.byteAt b j = s'.byteAt b j ∧ t.byteAt b j = s.byteAt b j)

/-! ### The invariant -/

/-- R25: the state after reset has the reset values, and meets the invariant. -/
def Obligations.ResetMeetsInvariant : Prop :=
  Invariant State.reset ∧
  State.reset.ph = .idle ∧ State.reset.busy = false ∧ State.reset.err = .ok ∧ State.reset.len.toNat = 0 ∧
  State.reset.cap.toNat = 510 ∧ State.reset.rsel = .unchanged ∧ State.reset.rlen.toNat = 0 ∧
  State.reset.hash.toNat = 0

/-- R16, R37, R71, R92: every step keeps the invariant, from every state that meets it. -/
def Obligations.EveryStepKeepsInvariant : Prop :=
  ∀ s t : State, Invariant s → step s = .next t → Invariant t

/-- R120, R71: from a state that meets the invariant no step faults, and one is refused only where the host's line is no
move of the block (U5; a script line of `atomhash` without its reads, log 10). -/
def Obligations.NoStepFaults : Prop :=
  ∀ s : State, Invariant s →
    (∃ t, step s = .next t) ∨
    (∃ a rest, s.agenda = .access a :: rest ∧ a.toMove = none ∧ step s = .refused (.reservedAccess a)) ∨
    (∃ m rest, s.agenda = .move m :: rest ∧ m.wf = false ∧ step s = .refused (.notAMove m)) ∨
    (∃ e rest, s.agenda = e :: rest ∧ (e = .lenFromRead ∨ e = .hashFromRead) ∧ step s = .refused .noReadValue)

/-! ### Whole commands -/

/-- R70: `ENC` from acceptance to completion: it takes exactly the steps of R74, and leaves `Encode` of the input, with
everything else as it was. -/
def Obligations.EncRunsToEncode : Prop :=
  ∀ s : State, s.busy = false → s.agenda = [] → s.len.toNat ≤ 255 → 2 * s.len.toNat ≤ s.cap.toNat →
    ∃ t u, exec .enc s = .next t ∧ RunsTo (encSteps (s.operand .ibuf)) t u ∧
      (∀ n < encSteps (s.operand .ibuf), ∃ v, RunsTo n t v ∧ v.busy = true) ∧
      Ended u ∧ u.busy = false ∧ u.err = .ok ∧
      u.encResult = encodeName (s.operand .ibuf) ∧
      u.rlen.toNat = (encodeName (s.operand .ibuf)).2.length ∧
      SameOperands s u ∧ u.hash = s.hash ∧
      SameFrom .obuf (if u.rsel = .converted then u.rlen.toNat else 0) s u

/-- R91: a hash command from acceptance to completion: it takes exactly the steps of R96, and leaves `Hash` of the
selected bytes, with everything else as it was. -/
def Obligations.HashRunsToHash : Prop :=
  ∀ (i : Instr) (b : Buf) (s : State), (i = .hashI ∧ b = .ibuf) ∨ (i = .hashO ∧ b = .obuf) →
    s.busy = false → s.agenda = [] → s.len.toNat ≤ b.size →
    ∃ t u, exec i s = .next t ∧ RunsTo (hashSteps (s.operand b)) t u ∧
      (∀ n < hashSteps (s.operand b), ∃ v, RunsTo n t v ∧ v.busy = true) ∧
      Ended u ∧ u.busy = false ∧ u.err = .ok ∧ u.hash = hashName (s.operand b) ∧
      SameOperands s u ∧ SameFrom .obuf 0 s u ∧ u.rsel = s.rsel ∧ u.rlen = s.rlen

/-- R69: whatever the host has done meanwhile, the completion step of `ENC` leaves `Encode` of the input. -/
def Obligations.EncCompletionLeavesEncode : Prop :=
  ∀ s t : State, Invariant s → s.ph.isEnc = true → s.resetTurn = false → step s = .next t → t.ph = .idle →
    t.busy = false ∧ t.err = .ok ∧ t.encResult = encodeName (s.operand .ibuf) ∧
    t.rlen.toNat = s.len.toNat + (if t.rsel = .converted then highCount (s.operand .ibuf) else 0) ∧
    SameOperands s t ∧ t.hash = s.hash

/-- R90: whatever the host has done meanwhile, the completion step of a hash command leaves `Hash` of the selected
bytes. -/
def Obligations.HashCompletionLeavesHash : Prop :=
  ∀ s t : State, Invariant s → s.ph = .hshRun → s.resetTurn = false → step s = .next t → t.ph = .idle →
    t.busy = false ∧ t.err = .ok ∧ t.hash = hashName (s.operand s.hs) ∧
    SameOperands s t ∧ SameFrom .obuf 0 s t ∧ t.rsel = s.rsel ∧ t.rlen = s.rlen

/-- R130: a host move while a unit runs changes no state of the block: writes are dropped, a command word is not decoded,
`ERR` keeps its 0; and no other line of the host changes any. -/
def Obligations.BusyMovesChangeNothing : Prop :=
  (∀ (s : State) (m : Move) (rest : List Event), s.busy = true → s.agenda = .move m :: rest → m.wf = true →
    ∃ t, step s = .next t ∧ SameBlock s t ∧ t.agenda = rest ∧
      (∀ r v, m = .regWrite r v → t.returned = s.returned) ∧ (∀ b i v, m = .bufWrite b i v → t.returned = s.returned) ∧
      (Invariant s → t.err = .ok)) ∧
  (∀ s t : State, s.busy = true → s.unitTurn = false → s.resetTurn = false → step s = .next t → SameBlock s t)

/-- R147: every `wait` of a host ends, with the block idle, after at most 512 micro-steps and the read that finds
`BUSY == 0` (the pace of the line is log 9). -/
def Obligations.WaitEnds : Prop :=
  ∀ (s : State) (rest : List Event), Invariant s → s.agenda = .wait :: rest →
    ∃ n u, n ≤ 513 ∧ RunsTo n s u ∧ u.agenda = rest ∧ u.busy = false ∧ u.ph = .idle

/-- R107, R59: the script `atomhash` leaves in `HASH` the plain mixing of the original Latin-1 bytes, and returns it to
the host; where `ENC` is refused it stops after the read of `STATUS`, with nothing changed but `STATUS.ERR`; and what its
stopping line does in any state (logs 1, 9 and 10). -/
def Obligations.AtomhashLeavesPlainMixing : Prop :=
  (∀ s : State, s.busy = false → s.agenda = Script.atomhash → s.len.toNat ≤ 255 → 2 * s.len.toNat ≤ s.cap.toNat →
    ∃ n u, RunsTo n s u ∧ Ended u ∧ u.busy = false ∧ u.err = .ok ∧
      u.encResult = encodeName (s.operand .ibuf) ∧ u.len = u.rlen ∧
      u.hash = pjw (s.operand .ibuf) ∧ u.returned.head? = some (.word (pjw (s.operand .ibuf)))) ∧
  (∀ s : State, s.busy = false → s.ph = .idle → s.agenda = Script.atomhash →
    255 < s.len.toNat ∨ s.cap.toNat < 2 * s.len.toNat →
    ∃ u, RunsTo 3 s u ∧ Ended u ∧ u.returned.head? = some (.word (statusWord u)) ∧
      u = { s with
        err := if 255 < s.len.toNat then .invalidLength else .bufferTooSmall, agenda := [], returned := u.returned }) ∧
  (∀ (s : State) (rest : List Event), s.agenda = .stopOnError :: rest →
    step s = .next { s with
      agenda := if s.err = .ok then rest else rest.filter (fun e => !e.isHostLine)
      returned := .word (statusWord s) :: s.returned })

/-- R103: two hash commands with equal `LEN` and equal first `LEN` bytes of their selected buffers leave equal `HASH`,
whichever buffer each used and whatever else the two states hold; and both are busy up to the same step. -/
def Obligations.HashIsDeterministic : Prop :=
  ∀ (i i' : Instr) (b b' : Buf) (s s' : State),
    (i = .hashI ∧ b = .ibuf) ∨ (i = .hashO ∧ b = .obuf) →
    (i' = .hashI ∧ b' = .ibuf) ∨ (i' = .hashO ∧ b' = .obuf) →
    s.busy = false → s'.busy = false → s.agenda = [] → s'.agenda = [] →
    s.len = s'.len → s.len.toNat ≤ b.size → s'.len.toNat ≤ b'.size →
    (∀ j, j < s.len.toNat → s.byteAt b j = s'.byteAt b' j) →
    ∃ t t' n u u', exec i s = .next t ∧ exec i' s' = .next t' ∧ RunsTo n t u ∧ RunsTo n t' u' ∧
      (∀ m < n, ∃ v v', RunsTo m t v ∧ RunsTo m t' v' ∧ v.busy = true ∧ v'.busy = true) ∧
      Ended u ∧ Ended u' ∧ u.hash = u'.hash ∧ u.err = u'.err

/-- R100: `ENC` on a name whose bytes are all below 0x80 leaves `RSEL = 0`, `RLEN = LEN` and `OBUF` untouched. -/
def Obligations.AsciiNameIsLeftAlone : Prop :=
  (∀ x : List Byte, x.length ≤ 255 → (∀ b ∈ x, b < 0x80#8) → encodeName x = (.unchanged, x)) ∧
  (∀ s : State, s.busy = false → s.agenda = [] → s.len.toNat ≤ 255 → 2 * s.len.toNat ≤ s.cap.toNat →
    (∀ j, j < s.len.toNat → s.byteAt .ibuf j < 0x80#8) →
    ∃ t u, exec .enc s = .next t ∧ RunsTo (s.len.toNat + 1) t u ∧ Ended u ∧
      u.rsel = .unchanged ∧ u.rlen = s.len ∧ SameFrom .obuf 0 s u)

/-! ### The functions -/

/-- R101: the exact length of an encoding, its two bounds, and when each is reached; for the command, the bounds of
`RLEN`. -/
def Obligations.EncodingLength : Prop :=
  (∀ x : List Byte, x.length ≤ 255 →
    (encodeName x).2.length = x.length + highCount x ∧
    x.length ≤ (encodeName x).2.length ∧ (encodeName x).2.length ≤ 2 * x.length ∧
    ((encodeName x).2.length = x.length ↔ ∀ b ∈ x, b < 0x80#8) ∧
    ((encodeName x).2.length = 2 * x.length ↔ ∀ b ∈ x, 0x80#8 ≤ b)) ∧
  (∀ s t : State, Invariant s → s.ph.isEnc = true → s.resetTurn = false → step s = .next t → t.ph = .idle →
    t.len.toNat ≤ t.rlen.toNat ∧ t.rlen.toNat ≤ 2 * t.len.toNat)

/-- R106 (c): which bytes an encoding has, and in which order. -/
def Obligations.EncodingIsMinimalUtf8 : Prop :=
  ∀ (x : List Byte) (j : Nat) (b : Byte), x.length ≤ 255 → (encodeName x).2[j]? = some b →
    (b < 0x80#8 ∨ isContinuation b = true ∨ b = 0xC2#8 ∨ b = 0xC3#8) ∧
    (b = 0xC2#8 ∨ b = 0xC3#8 → ∃ n, (encodeName x).2[j + 1]? = some n ∧ isContinuation n = true) ∧
    (isContinuation b = true → ∃ k v, j = k + 1 ∧ (encodeName x).2[k]? = some v ∧ (v = 0xC2#8 ∨ v = 0xC3#8))

/-- R106 (d): `Encode` is injective in its bytes and its tag. -/
def Obligations.EncodingIsInjective : Prop :=
  ∀ x z : List Byte, x.length ≤ 255 → z.length ≤ 255 → encodeName x = encodeName z → x = z

/-- R106 (b), (e): the tag is 1 exactly when a byte is at or above 0x80, and 0 exactly when the output is the input;
`Encode` distributes over concatenation in its bytes, and the tag is the logical or of the tags. -/
def Obligations.EncodingTagAndConcatenation : Prop :=
  ∀ x z : List Byte, (x ++ z).length ≤ 255 →
    ((encodeName x).1 = .converted ↔ ∃ b ∈ x, 0x80#8 ≤ b) ∧
    ((encodeName x).1 = .unchanged ↔ (encodeName x).2 = x) ∧
    (encodeName (x ++ z)).2 = (encodeName x).2 ++ (encodeName z).2 ∧
    ((encodeName (x ++ z)).1 = .converted ↔ (encodeName x).1 = .converted ∨ (encodeName z).1 = .converted)

/-- R85: the mixing step, on numbers, and that the test of `g` is only a shortcut. -/
def Obligations.MixingStep : Prop :=
  ∀ (h h1 g : Word) (u : Byte), h1.toNat = (h.toNat * 2 ^ 4 + u.toNat) % 2 ^ 32 → g = h1 &&& 0xF0000000#32 →
    (g ≠ 0 → mix h u = (h1 ^^^ (g >>> 24)) ^^^ g) ∧ (g = 0 → mix h u = h1) ∧
    mix h u = (h1 ^^^ (g >>> 24)) ^^^ g

/-- R92: bits 31:28 are 0 after every mixing step, and in every hash. -/
def Obligations.HashBelowTwoToThe28 : Prop :=
  (∀ (h : Word) (u : Byte), (mix h u).toNat < 2 ^ 28) ∧ (∀ x : List Byte, (hashName x).toNat ≤ 0x0FFFFFFF)

/-- R82, R84, R94: the cut into units, at its head: the pair folds exactly under the three conditions, a lead byte with no
next byte is a unit of its own, and the rest is cut on its own. -/
def Obligations.UnitsCutGreedily : Prop :=
  units [] = [] ∧ (∀ v : Byte, units [v] = [v]) ∧
  (∀ (v next : Byte) (rest : List Byte),
    (v &&& 0xFE#8 = 0xC2#8 ∧ next &&& 0xC0#8 = 0x80#8 →
      units (v :: next :: rest) = BitVec.ofNat 8 (v.toNat * 2 ^ 6 ||| (next &&& 0x3F#8).toNat) :: units rest) ∧
    (¬ (v &&& 0xFE#8 = 0xC2#8 ∧ next &&& 0xC0#8 = 0x80#8) →
      units (v :: next :: rest) = v :: units (next :: rest)))

/-- R104: the hash of the two-byte encoding of a character at or above 0x80 is the hash of its one raw byte; and the pair
is one unit wherever the scan meets it. -/
def Obligations.FoldEquivalence : Prop :=
  ∀ b : Byte, 0x80#8 ≤ b →
    hashName (xlat b) = hashName [b] ∧ hashName [b] = b.setWidth 32 ∧
    ∀ rest : List Byte, units (xlat b ++ rest) = b :: units rest

/-- R107: hashing an encoded name is the plain mixing of the original bytes. -/
def Obligations.HashOfEncodingIsPlainMixing : Prop :=
  ∀ x : List Byte, x.length ≤ 255 → units (encodeName x).2 = x ∧ hashName (encodeName x).2 = pjw x

/-- R108: a name without a fold pattern is its own units, so it and its encoding hash alike; every ASCII name is one; and
a name with a fold pattern can differ. -/
def Obligations.HashStableWithoutFoldPattern : Prop :=
  (∀ x : List Byte, hasFoldPattern x = true ↔
    ∃ i v n, x[i]? = some v ∧ (v = 0xC2#8 ∨ v = 0xC3#8) ∧ x[i + 1]? = some n ∧ isContinuation n = true) ∧
  (∀ x : List Byte, hasFoldPattern x = false →
    units x = x ∧ hashName x = pjw x ∧ (x.length ≤ 255 → hashName (encodeName x).2 = hashName x)) ∧
  (∀ x : List Byte, (∀ b ∈ x, b < 0x80#8) → hasFoldPattern x = false) ∧
  hashName [0xC2#8, 0xA9#8] ≠ hashName (encodeName [0xC2#8, 0xA9#8]).2

/-- R109: at most five units hash to the plain sum. -/
def Obligations.ShortNamesHashToPlainSum : Prop :=
  ∀ x : List Byte, (units x).length ≤ 5 →
    (hashName x).toNat = (units x).foldl (fun a u => a * 16 + u.toNat) 0

/-- R74, R96: the bounds on the step counts. -/
def Obligations.StepCountBounds : Prop :=
  ∀ x : List Byte,
    x.length + 1 ≤ encSteps x ∧ encSteps x ≤ 2 * x.length + 2 ∧
    (x.length + 1) / 2 + 1 ≤ hashSteps x ∧ hashSteps x ≤ x.length + 1

/-! ### The host -/

/-- R16, R120: the status word and the four codes, and `BUSY == 1` exactly when `PH != IDLE`. -/
def Obligations.StatusWordFields : Prop :=
  (∀ s : State, (statusWord s).toNat = (if s.busy then 1 else 0) + 2 ^ 4 * s.err.code.toNat) ∧
  (ErrCode.ok.code.toNat = 0 ∧ ErrCode.invalidLength.code.toNat = 1 ∧ ErrCode.bufferTooSmall.code.toNat = 2 ∧
    ErrCode.illegalCommand.code.toNat = 3) ∧
  (∀ s : State, Invariant s → (statusBusy (statusWord s) = true ↔ s.ph ≠ .idle))

/-- R24: operand writes while idle: `LEN` and `CAP` take bits 9:0, nothing else changes; writes of read-only registers are
ignored in every state. -/
def Obligations.RegisterWrites : Prop :=
  ∀ (s : State) (v : Word) (rest : List Event),
    (s.busy = false → s.agenda = Script.wr .len v :: rest →
      step s = .next { s with len := BitVec.ofNat 10 (v.toNat % 1024), agenda := rest }) ∧
    (s.busy = false → s.agenda = Script.wr .cap v :: rest →
      step s = .next { s with cap := BitVec.ofNat 10 (v.toNat % 1024), agenda := rest }) ∧
    (∀ r, r = .status ∨ r = .rsel ∨ r = .rlen ∨ r = .hash → s.agenda = Script.wr r v :: rest →
      step s = .next { s with agenda := rest })

/-- R32: a buffer write while idle writes that one byte and nothing else; while busy it is dropped. R59: the script line
`load` writes its bytes from index 0 and their number to `LEN`, and nothing else. -/
def Obligations.BufferWrites : Prop :=
  (∀ (s : State) (b : Buf) (i : Nat) (v : Byte) (rest : List Event), i < b.size → s.agenda = Script.wb b i v :: rest →
    (s.busy = true → step s = .next { s with agenda := rest }) ∧
    (s.busy = false → ∃ t, step s = .next t ∧ t.byteAt b i = v ∧
      (∀ b' j, b' ≠ b ∨ j ≠ i → t.byteAt b' j = s.byteAt b' j) ∧
      { t with ibuf := s.ibuf, obuf := s.obuf, agenda := s.agenda } = s)) ∧
  (∀ (s : State) (b : Buf) (x : List Byte) (rest : List Event), s.busy = false → x.length ≤ b.size →
    s.agenda = Script.load b x ++ rest →
    ∃ t, RunsTo (x.length + 1) s t ∧ t.agenda = rest ∧ t.bytes b x.length = x ∧ t.len.toNat = x.length ∧
      (∀ b' j, b' ≠ b ∨ x.length ≤ j → t.byteAt b' j = s.byteAt b' j) ∧
      { t with ibuf := s.ibuf, obuf := s.obuf, len := s.len, agenda := s.agenda } = s)

/-- R24, R32: what reads return, where the spec fixes it, and that they change nothing else. -/
def Obligations.DefinedReads : Prop :=
  ∀ (s : State) (rest : List Event),
    (∀ (r : Reg) (v : Word), s.agenda = Script.rd r :: rest →
      (r = .cmd ∧ v = 0) ∨ (r = .status ∧ v = statusWord s) ∨
        (r = .len ∧ v.toNat = s.len.toNat) ∨ (r = .cap ∧ v.toNat = s.cap.toNat) ∨
        (s.busy = false ∧
          ((r = .rsel ∧ v.toNat = if s.rsel = .converted then 1 else 0) ∨ (r = .rlen ∧ v.toNat = s.rlen.toNat) ∨
            (r = .hash ∧ v = s.hash))) →
      step s = .next { s with agenda := rest, returned := .word v :: s.returned }) ∧
    (∀ (b : Buf) (i : Nat), i < b.size → s.busy = false → s.agenda = Script.rb b i :: rest →
      step s = .next { s with agenda := rest, returned := .byte (s.byteAt b i) :: s.returned })

/-- R24, R32, U2: while busy, reads of the result registers and of the buffers return some value and change no state of
the block (the value is free, log 3). -/
def Obligations.BusyReadsReturnSomeValue : Prop :=
  ∀ (s : State) (rest : List Event), s.busy = true →
    (∀ r, r = .rsel ∨ r = .rlen ∨ r = .hash → s.agenda = Script.rd r :: rest →
      ∃ (t : State) (w : Word), step s = .next t ∧ SameBlock s t ∧ t.agenda = rest ∧
        t.returned = .word w :: s.returned) ∧
    (∀ b i, i < b.size → s.agenda = Script.rb b i :: rest →
      ∃ (t : State) (v : Byte), step s = .next t ∧ SameBlock s t ∧ t.agenda = rest ∧
        t.returned = .byte v :: s.returned)

/-- R33: the window map: which accesses are which moves; every other access is refused, and no read has a side effect. -/
def Obligations.WindowMap : Prop :=
  ([Reg.cmd, .status, .len, .cap, .rsel, .rlen, .hash].map Reg.offset = [0x000, 0x004, 0x008, 0x00C, 0x010, 0x014, 0x018] ∧
    Buf.ibuf.offset = 0x100 ∧ Buf.ibuf.size = 255 ∧ Buf.obuf.offset = 0x200 ∧ Buf.obuf.size = 510) ∧
  (∀ (a : Access) (m : Move), a.toMove = some m ↔
    (∃ r, a = .load32 r.offset ∧ m = .regRead r) ∨
    (∃ r v, a = .store32 r.offset v ∧ m = .regWrite r v) ∨
    (∃ b i, i < b.size ∧ a = .load8 (b.offset + i) ∧ m = .bufRead b i) ∨
    (∃ b i v, i < b.size ∧ a = .store8 (b.offset + i) v ∧ m = .bufWrite b i v)) ∧
  (∀ (s : State) (a : Access) (rest : List Event), s.agenda = .access a :: rest →
    (∀ m, a.toMove = some m → step s = step { s with agenda := .move m :: rest }) ∧
    (a.toMove = none → step s = .refused (.reservedAccess a)) ∧
    (∀ (off : Nat) (t : State), a = .load8 off ∨ a = .load16 off ∨ a = .load32 off → step s = .next t → SameBlock s t))

/-- R140, R25: the `Reset` event, from every state: the registers take their reset values. -/
def Obligations.ResetEventRestoresRegisters : Prop :=
  ∀ (s : State) (rest : List Event), s.agenda = .reset :: rest →
    ∃ t, step s = .next t ∧ t.ph = .idle ∧ t.busy = false ∧ t.err = .ok ∧ t.len.toNat = 0 ∧ t.cap.toNat = 510 ∧
      t.rsel = .unchanged ∧ t.rlen.toNat = 0 ∧ t.hash.toNat = 0 ∧ t.agenda = rest ∧ t.returned = s.returned

/-- R148: a state is final exactly when the host has issued its last move and `PH == IDLE`: in every other state that
meets the invariant a step changes something (that the final state stays as it is, is log 1). -/
def Obligations.FinalExactlyWhenEnded : Prop :=
  ∀ s : State, Invariant s → (step s = .next s ↔ Ended s)
end

