-- ==== Sys2Proof/Laws/Decode.lean ====
section
/-! SUPPORT. What the decoder answers, by the fields of the word. -/

namespace Sys2Proof

/-- The fields of a word determine it: no bit of an encoding is dropped. -/
theorem word_eq_fields (w : Word) : w = zeroField w ++ (srcField w ++ opcField w) := by
  apply BitVec.eq_of_getLsbD_eq
  intro i hi
  simp only [zeroField, srcField, opcField, BitVec.getLsbD_append, BitVec.getLsbD_extractLsb']
  by_cases h8 : i < 8
  · simp [h8, show i < 9 by omega]
  · by_cases h9 : i < 9
    · obtain rfl : i = 8 := by omega
      simp
    · simp [h9, show i - 9 < 23 by omega, show 9 + (i - 9) = i by omega]

/-- Equal fields, equal words. -/
theorem word_ext_fields {v w : Word} (hz : zeroField v = zeroField w) (hs : srcField v = srcField w)
    (ho : opcField v = opcField w) : v = w := by
  rw [word_eq_fields v, word_eq_fields w, hz, hs, ho]

theorem srcField_eq_zero_or_one (w : Word) : srcField w = 0 ∨ srcField w = 1 := by
  generalize srcField w = b
  revert b
  decide

end Sys2Proof
end

