-- ==== Sys2Proof/Laws/Functions.lean ====
section
/-! SUPPORT. Small lemmas of the byte tests and of the functions `X`, `Units` and `Mix`, so that no later proof unfolds
them. -/

namespace Sys2Proof.Machine

/-! ### Byte tests -/

theorem isAscii_iff (b : Byte) : isAscii b = true ↔ b < 0x80#8 := by simp [isAscii]

theorem isAscii_eq_false_iff (b : Byte) : isAscii b = false ↔ 0x80#8 ≤ b := by simp [isAscii]

theorem all_isAscii_iff (x : List Byte) : x.all isAscii = true ↔ ∀ b ∈ x, b < 0x80#8 := by
  simp [List.all_eq_true, isAscii_iff]

theorem isLead_iff (v : Byte) : isLead v = true ↔ v = 0xC2#8 ∨ v = 0xC3#8 := by
  revert v; decide

theorem not_isLead_of_isAscii {b : Byte} : isAscii b = true → isLead b = false := by
  revert b; decide

theorem not_isContinuation_of_isAscii {b : Byte} : isAscii b = true → isContinuation b = false := by
  revert b; decide

theorem not_isContinuation_of_isLead {b : Byte} : isLead b = true → isContinuation b = false := by
  revert b; decide

theorem isLead_leadOf {b : Byte} : isAscii b = false → isLead (leadOf b) = true := by
  revert b; decide

theorem isContinuation_trailOf {b : Byte} : isAscii b = false → isContinuation (trailOf b) = true := by
  revert b; decide

/-- The fold is the inverse of the translation. -/
theorem foldPair_lead_trail {b : Byte} : isAscii b = false → foldPair (leadOf b) (trailOf b) = b := by
  revert b; decide

/-! ### `X` over a sequence -/

theorem xlat_of_isAscii {b : Byte} (h : isAscii b = true) : xlat b = [b] := by simp [xlat, h]

theorem xlat_of_not_isAscii {b : Byte} (h : isAscii b = false) : xlat b = [leadOf b, trailOf b] := by
  simp [xlat, h]

@[simp] theorem xlatAll_nil : xlatAll [] = [] := rfl

theorem xlatAll_cons (b : Byte) (x : List Byte) : xlatAll (b :: x) = xlat b ++ xlatAll x := by
  simp [xlatAll]

theorem xlatAll_append (x z : List Byte) : xlatAll (x ++ z) = xlatAll x ++ xlatAll z := by
  simp [xlatAll]

theorem xlatAll_singleton (b : Byte) : xlatAll [b] = xlat b := by simp [xlatAll]

theorem xlatAll_of_all_isAscii {x : List Byte} (h : x.all isAscii = true) : xlatAll x = x := by
  induction x with
  | nil => rfl
  | cons b x ih =>
    simp only [List.all_cons, Bool.and_eq_true] at h
    rw [xlatAll_cons, xlat_of_isAscii h.1, ih h.2]
    rfl

@[simp] theorem highCount_nil : highCount [] = 0 := rfl

theorem highCount_append (x z : List Byte) : highCount (x ++ z) = highCount x + highCount z := by
  simp [highCount]

theorem highCount_singleton (b : Byte) : highCount [b] = if isAscii b then 0 else 1 := by
  cases h : isAscii b <;> simp [highCount, h]

theorem highCount_le_length (x : List Byte) : highCount x ≤ x.length := List.countP_le_length

theorem length_xlatAll (x : List Byte) : (xlatAll x).length = x.length + highCount x := by
  induction x with
  | nil => rfl
  | cons b x ih =>
    rw [xlatAll_cons, List.length_append, ih, List.length_cons, ← List.singleton_append, highCount_append,
      highCount_singleton]
    cases h : isAscii b
    · simp [xlat_of_not_isAscii h]
      omega
    · simp [xlat_of_isAscii h]
      omega

/-- The bytes of an encoding are the translation of the whole input on both paths (R63). -/
theorem encodeName_snd (x : List Byte) : (encodeName x).2 = xlatAll x := by
  unfold encodeName
  split
  · rename_i h
    rw [xlatAll_of_all_isAscii h]
  · rfl

/-! ### `Units` -/

@[simp] theorem units_nil : units [] = [] := rfl

@[simp] theorem units_singleton (v : Byte) : units [v] = [v] := rfl

theorem units_pair {v next : Byte} (rest : List Byte) (h : (isLead v && isContinuation next) = true) :
    units (v :: next :: rest) = foldPair v next :: units rest := by
  simp only [units, h, if_true]

theorem units_single {v next : Byte} (rest : List Byte) (h : (isLead v && isContinuation next) = false) :
    units (v :: next :: rest) = v :: units (next :: rest) := by
  simp [units, h]

/-- A byte that is no lead byte is a unit of its own, whatever follows. -/
theorem units_cons_of_not_lead {v : Byte} (rest : List Byte) (h : isLead v = false) :
    units (v :: rest) = v :: units rest := by
  cases rest with
  | nil => rfl
  | cons n rest => exact units_single rest (by simp [h])

/-- The translation of a byte is one unit, the byte itself, wherever the scan meets it. -/
theorem units_xlat_append (b : Byte) (rest : List Byte) : units (xlat b ++ rest) = b :: units rest := by
  cases h : isAscii b
  · rw [xlat_of_not_isAscii h, List.cons_append, List.cons_append, List.nil_append,
      units_pair rest (by simp [isLead_leadOf h, isContinuation_trailOf h]), foldPair_lead_trail h]
  · rw [xlat_of_isAscii h, List.singleton_append, units_cons_of_not_lead rest (not_isLead_of_isAscii h)]

theorem units_xlatAll (x : List Byte) : units (xlatAll x) = x := by
  induction x with
  | nil => rfl
  | cons b x ih => rw [xlatAll_cons, units_xlat_append, ih]

/-! ### `Mix` -/

/-- Clearing the top nibble leaves a number below `2 ^ 28`. -/
theorem toNat_lt_of_top_clear {w : Word} (h : ∀ i, 28 ≤ i → w.getLsbD i = false) : w.toNat < 2 ^ 28 := by
  apply Nat.lt_pow_two_of_testBit
  intro i hi
  simpa [BitVec.getLsbD] using h i hi

/-- The test of `g` is only a shortcut (R85). -/
theorem mix_eq (h : Word) (u : Byte) :
    mix h u = (((h <<< 4) + u.setWidth 32) ^^^ ((((h <<< 4) + u.setWidth 32) &&& 0xF0000000#32) >>> 24)) ^^^
      (((h <<< 4) + u.setWidth 32) &&& 0xF0000000#32) := by
  simp only [mix]
  split
  · rfl
  · rename_i hg
    simp only [ne_eq, not_not] at hg
    simp [hg]

end Sys2Proof.Machine
end

