-- ==== Sys2Proof/Laws/State.lean ====
section
/-! SUPPORT. What each named update of the state does to each field: one lemma per field per update. -/

namespace Sys2Proof.Machine

/-! ### raiseErr -/

@[simp] theorem raiseErr_ibuf (c : ErrCode) (s : State) : (raiseErr c s).ibuf = s.ibuf := rfl
@[simp] theorem raiseErr_obuf (c : ErrCode) (s : State) : (raiseErr c s).obuf = s.obuf := rfl
@[simp] theorem raiseErr_len (c : ErrCode) (s : State) : (raiseErr c s).len = s.len := rfl
@[simp] theorem raiseErr_cap (c : ErrCode) (s : State) : (raiseErr c s).cap = s.cap := rfl
@[simp] theorem raiseErr_busy (c : ErrCode) (s : State) : (raiseErr c s).busy = s.busy := rfl
@[simp] theorem raiseErr_err (c : ErrCode) (s : State) : (raiseErr c s).err = c := rfl
@[simp] theorem raiseErr_rsel (c : ErrCode) (s : State) : (raiseErr c s).rsel = s.rsel := rfl
@[simp] theorem raiseErr_rlen (c : ErrCode) (s : State) : (raiseErr c s).rlen = s.rlen := rfl
@[simp] theorem raiseErr_hash (c : ErrCode) (s : State) : (raiseErr c s).hash = s.hash := rfl
@[simp] theorem raiseErr_ph (c : ErrCode) (s : State) : (raiseErr c s).ph = s.ph := rfl
@[simp] theorem raiseErr_iCur (c : ErrCode) (s : State) : (raiseErr c s).iCur = s.iCur := rfl
@[simp] theorem raiseErr_oCur (c : ErrCode) (s : State) : (raiseErr c s).oCur = s.oCur := rfl
@[simp] theorem raiseErr_hs (c : ErrCode) (s : State) : (raiseErr c s).hs = s.hs := rfl
@[simp] theorem raiseErr_agenda (c : ErrCode) (s : State) : (raiseErr c s).agenda = s.agenda := rfl
@[simp] theorem raiseErr_returned (c : ErrCode) (s : State) : (raiseErr c s).returned = s.returned := rfl
@[simp] theorem raiseErr_draws (c : ErrCode) (s : State) : (raiseErr c s).draws = s.draws := rfl
@[simp] theorem raiseErr_epoch (c : ErrCode) (s : State) : (raiseErr c s).epoch = s.epoch := rfl

/-! ### acceptCommand -/

@[simp] theorem acceptCommand_ibuf (p : Phase) (s : State) : (acceptCommand p s).ibuf = s.ibuf := rfl
@[simp] theorem acceptCommand_obuf (p : Phase) (s : State) : (acceptCommand p s).obuf = s.obuf := rfl
@[simp] theorem acceptCommand_len (p : Phase) (s : State) : (acceptCommand p s).len = s.len := rfl
@[simp] theorem acceptCommand_cap (p : Phase) (s : State) : (acceptCommand p s).cap = s.cap := rfl
@[simp] theorem acceptCommand_busy (p : Phase) (s : State) : (acceptCommand p s).busy = true := rfl
@[simp] theorem acceptCommand_err (p : Phase) (s : State) : (acceptCommand p s).err = .ok := rfl
@[simp] theorem acceptCommand_rsel (p : Phase) (s : State) : (acceptCommand p s).rsel = s.rsel := rfl
@[simp] theorem acceptCommand_rlen (p : Phase) (s : State) : (acceptCommand p s).rlen = s.rlen := rfl
@[simp] theorem acceptCommand_hash (p : Phase) (s : State) : (acceptCommand p s).hash = s.hash := rfl
@[simp] theorem acceptCommand_ph (p : Phase) (s : State) : (acceptCommand p s).ph = p := rfl
@[simp] theorem acceptCommand_iCur (p : Phase) (s : State) : (acceptCommand p s).iCur = 0 := rfl
@[simp] theorem acceptCommand_oCur (p : Phase) (s : State) : (acceptCommand p s).oCur = s.oCur := rfl
@[simp] theorem acceptCommand_hs (p : Phase) (s : State) : (acceptCommand p s).hs = s.hs := rfl
@[simp] theorem acceptCommand_agenda (p : Phase) (s : State) : (acceptCommand p s).agenda = s.agenda := rfl
@[simp] theorem acceptCommand_returned (p : Phase) (s : State) : (acceptCommand p s).returned = s.returned := rfl
@[simp] theorem acceptCommand_draws (p : Phase) (s : State) : (acceptCommand p s).draws = s.draws := rfl
@[simp] theorem acceptCommand_epoch (p : Phase) (s : State) : (acceptCommand p s).epoch = s.epoch := rfl

/-! ### forgetHidden -/

@[simp] theorem forgetHidden_ibuf (s : State) : (forgetHidden s).ibuf = s.ibuf := rfl
@[simp] theorem forgetHidden_obuf (s : State) : (forgetHidden s).obuf = s.obuf := rfl
@[simp] theorem forgetHidden_len (s : State) : (forgetHidden s).len = s.len := rfl
@[simp] theorem forgetHidden_cap (s : State) : (forgetHidden s).cap = s.cap := rfl
@[simp] theorem forgetHidden_busy (s : State) : (forgetHidden s).busy = s.busy := rfl
@[simp] theorem forgetHidden_err (s : State) : (forgetHidden s).err = s.err := rfl
@[simp] theorem forgetHidden_rsel (s : State) : (forgetHidden s).rsel = s.rsel := rfl
@[simp] theorem forgetHidden_rlen (s : State) : (forgetHidden s).rlen = s.rlen := rfl
@[simp] theorem forgetHidden_hash (s : State) : (forgetHidden s).hash = s.hash := rfl
@[simp] theorem forgetHidden_ph (s : State) : (forgetHidden s).ph = s.ph := rfl
@[simp] theorem forgetHidden_iCur (s : State) : (forgetHidden s).iCur = Config.hiddenI s.draws := rfl
@[simp] theorem forgetHidden_oCur (s : State) : (forgetHidden s).oCur = Config.hiddenO s.draws := rfl
@[simp] theorem forgetHidden_hs (s : State) : (forgetHidden s).hs = if Config.hiddenHs s.draws then .obuf else .ibuf := rfl
@[simp] theorem forgetHidden_agenda (s : State) : (forgetHidden s).agenda = s.agenda := rfl
@[simp] theorem forgetHidden_returned (s : State) : (forgetHidden s).returned = s.returned := rfl
@[simp] theorem forgetHidden_draws (s : State) : (forgetHidden s).draws = s.draws + 1 := rfl
@[simp] theorem forgetHidden_epoch (s : State) : (forgetHidden s).epoch = s.epoch := rfl

/-! ### completeCommand -/

@[simp] theorem completeCommand_ibuf (s : State) : (completeCommand s).ibuf = s.ibuf := rfl
@[simp] theorem completeCommand_obuf (s : State) : (completeCommand s).obuf = s.obuf := rfl
@[simp] theorem completeCommand_len (s : State) : (completeCommand s).len = s.len := rfl
@[simp] theorem completeCommand_cap (s : State) : (completeCommand s).cap = s.cap := rfl
@[simp] theorem completeCommand_busy (s : State) : (completeCommand s).busy = false := rfl
@[simp] theorem completeCommand_err (s : State) : (completeCommand s).err = s.err := rfl
@[simp] theorem completeCommand_rsel (s : State) : (completeCommand s).rsel = s.rsel := rfl
@[simp] theorem completeCommand_rlen (s : State) : (completeCommand s).rlen = s.rlen := rfl
@[simp] theorem completeCommand_hash (s : State) : (completeCommand s).hash = s.hash := rfl
@[simp] theorem completeCommand_ph (s : State) : (completeCommand s).ph = .idle := rfl
@[simp] theorem completeCommand_iCur (s : State) : (completeCommand s).iCur = Config.hiddenI s.draws := rfl
@[simp] theorem completeCommand_oCur (s : State) : (completeCommand s).oCur = Config.hiddenO s.draws := rfl
@[simp] theorem completeCommand_hs (s : State) : (completeCommand s).hs = if Config.hiddenHs s.draws then .obuf else .ibuf :=
  rfl
@[simp] theorem completeCommand_agenda (s : State) : (completeCommand s).agenda = s.agenda := rfl
@[simp] theorem completeCommand_returned (s : State) : (completeCommand s).returned = s.returned := rfl
@[simp] theorem completeCommand_draws (s : State) : (completeCommand s).draws = s.draws + 1 := rfl
@[simp] theorem completeCommand_epoch (s : State) : (completeCommand s).epoch = s.epoch := rfl

/-! ### receive -/

@[simp] theorem receive_ibuf (s : State) (d : Datum) : (s.receive d).ibuf = s.ibuf := rfl
@[simp] theorem receive_obuf (s : State) (d : Datum) : (s.receive d).obuf = s.obuf := rfl
@[simp] theorem receive_len (s : State) (d : Datum) : (s.receive d).len = s.len := rfl
@[simp] theorem receive_cap (s : State) (d : Datum) : (s.receive d).cap = s.cap := rfl
@[simp] theorem receive_busy (s : State) (d : Datum) : (s.receive d).busy = s.busy := rfl
@[simp] theorem receive_err (s : State) (d : Datum) : (s.receive d).err = s.err := rfl
@[simp] theorem receive_rsel (s : State) (d : Datum) : (s.receive d).rsel = s.rsel := rfl
@[simp] theorem receive_rlen (s : State) (d : Datum) : (s.receive d).rlen = s.rlen := rfl
@[simp] theorem receive_hash (s : State) (d : Datum) : (s.receive d).hash = s.hash := rfl
@[simp] theorem receive_ph (s : State) (d : Datum) : (s.receive d).ph = s.ph := rfl
@[simp] theorem receive_iCur (s : State) (d : Datum) : (s.receive d).iCur = s.iCur := rfl
@[simp] theorem receive_oCur (s : State) (d : Datum) : (s.receive d).oCur = s.oCur := rfl
@[simp] theorem receive_hs (s : State) (d : Datum) : (s.receive d).hs = s.hs := rfl
@[simp] theorem receive_agenda (s : State) (d : Datum) : (s.receive d).agenda = s.agenda := rfl
@[simp] theorem receive_returned (s : State) (d : Datum) : (s.receive d).returned = d :: s.returned := rfl
@[simp] theorem receive_draws (s : State) (d : Datum) : (s.receive d).draws = s.draws := rfl
@[simp] theorem receive_epoch (s : State) (d : Datum) : (s.receive d).epoch = s.epoch := rfl

/-! ### hostStops -/

@[simp] theorem hostStops_ibuf (s : State) : (hostStops s).ibuf = s.ibuf := rfl
@[simp] theorem hostStops_obuf (s : State) : (hostStops s).obuf = s.obuf := rfl
@[simp] theorem hostStops_len (s : State) : (hostStops s).len = s.len := rfl
@[simp] theorem hostStops_cap (s : State) : (hostStops s).cap = s.cap := rfl
@[simp] theorem hostStops_busy (s : State) : (hostStops s).busy = s.busy := rfl
@[simp] theorem hostStops_err (s : State) : (hostStops s).err = s.err := rfl
@[simp] theorem hostStops_rsel (s : State) : (hostStops s).rsel = s.rsel := rfl
@[simp] theorem hostStops_rlen (s : State) : (hostStops s).rlen = s.rlen := rfl
@[simp] theorem hostStops_hash (s : State) : (hostStops s).hash = s.hash := rfl
@[simp] theorem hostStops_ph (s : State) : (hostStops s).ph = s.ph := rfl
@[simp] theorem hostStops_iCur (s : State) : (hostStops s).iCur = s.iCur := rfl
@[simp] theorem hostStops_oCur (s : State) : (hostStops s).oCur = s.oCur := rfl
@[simp] theorem hostStops_hs (s : State) : (hostStops s).hs = s.hs := rfl
@[simp] theorem hostStops_agenda (s : State) : (hostStops s).agenda = s.agenda.filter (fun e => !e.isHostLine) := rfl
@[simp] theorem hostStops_returned (s : State) : (hostStops s).returned = s.returned := rfl
@[simp] theorem hostStops_draws (s : State) : (hostStops s).draws = s.draws := rfl
@[simp] theorem hostStops_epoch (s : State) : (hostStops s).epoch = s.epoch := rfl

/-! ### mixSingle -/

@[simp] theorem mixSingle_ibuf (v : Byte) (s : State) : (mixSingle v s).ibuf = s.ibuf := rfl
@[simp] theorem mixSingle_obuf (v : Byte) (s : State) : (mixSingle v s).obuf = s.obuf := rfl
@[simp] theorem mixSingle_len (v : Byte) (s : State) : (mixSingle v s).len = s.len := rfl
@[simp] theorem mixSingle_cap (v : Byte) (s : State) : (mixSingle v s).cap = s.cap := rfl
@[simp] theorem mixSingle_busy (v : Byte) (s : State) : (mixSingle v s).busy = s.busy := rfl
@[simp] theorem mixSingle_err (v : Byte) (s : State) : (mixSingle v s).err = s.err := rfl
@[simp] theorem mixSingle_rsel (v : Byte) (s : State) : (mixSingle v s).rsel = s.rsel := rfl
@[simp] theorem mixSingle_rlen (v : Byte) (s : State) : (mixSingle v s).rlen = s.rlen := rfl
@[simp] theorem mixSingle_hash (v : Byte) (s : State) : (mixSingle v s).hash = mix s.hash v := rfl
@[simp] theorem mixSingle_ph (v : Byte) (s : State) : (mixSingle v s).ph = s.ph := rfl
@[simp] theorem mixSingle_iCur (v : Byte) (s : State) : (mixSingle v s).iCur = s.iCur + 1 := rfl
@[simp] theorem mixSingle_oCur (v : Byte) (s : State) : (mixSingle v s).oCur = s.oCur := rfl
@[simp] theorem mixSingle_hs (v : Byte) (s : State) : (mixSingle v s).hs = s.hs := rfl
@[simp] theorem mixSingle_agenda (v : Byte) (s : State) : (mixSingle v s).agenda = s.agenda := rfl
@[simp] theorem mixSingle_returned (v : Byte) (s : State) : (mixSingle v s).returned = s.returned := rfl
@[simp] theorem mixSingle_draws (v : Byte) (s : State) : (mixSingle v s).draws = s.draws := rfl
@[simp] theorem mixSingle_epoch (v : Byte) (s : State) : (mixSingle v s).epoch = s.epoch := rfl

/-! ### mixPair -/

@[simp] theorem mixPair_ibuf (v next : Byte) (s : State) : (mixPair v next s).ibuf = s.ibuf := rfl
@[simp] theorem mixPair_obuf (v next : Byte) (s : State) : (mixPair v next s).obuf = s.obuf := rfl
@[simp] theorem mixPair_len (v next : Byte) (s : State) : (mixPair v next s).len = s.len := rfl
@[simp] theorem mixPair_cap (v next : Byte) (s : State) : (mixPair v next s).cap = s.cap := rfl
@[simp] theorem mixPair_busy (v next : Byte) (s : State) : (mixPair v next s).busy = s.busy := rfl
@[simp] theorem mixPair_err (v next : Byte) (s : State) : (mixPair v next s).err = s.err := rfl
@[simp] theorem mixPair_rsel (v next : Byte) (s : State) : (mixPair v next s).rsel = s.rsel := rfl
@[simp] theorem mixPair_rlen (v next : Byte) (s : State) : (mixPair v next s).rlen = s.rlen := rfl
@[simp] theorem mixPair_hash (v next : Byte) (s : State) : (mixPair v next s).hash = mix s.hash (foldPair v next) := rfl
@[simp] theorem mixPair_ph (v next : Byte) (s : State) : (mixPair v next s).ph = s.ph := rfl
@[simp] theorem mixPair_iCur (v next : Byte) (s : State) : (mixPair v next s).iCur = s.iCur + 2 := rfl
@[simp] theorem mixPair_oCur (v next : Byte) (s : State) : (mixPair v next s).oCur = s.oCur := rfl
@[simp] theorem mixPair_hs (v next : Byte) (s : State) : (mixPair v next s).hs = s.hs := rfl
@[simp] theorem mixPair_agenda (v next : Byte) (s : State) : (mixPair v next s).agenda = s.agenda := rfl
@[simp] theorem mixPair_returned (v next : Byte) (s : State) : (mixPair v next s).returned = s.returned := rfl
@[simp] theorem mixPair_draws (v next : Byte) (s : State) : (mixPair v next s).draws = s.draws := rfl
@[simp] theorem mixPair_epoch (v next : Byte) (s : State) : (mixPair v next s).epoch = s.epoch := rfl

/-! ### withCommandWord -/

@[simp] theorem withCommandWord_ibuf (w : Word) (s : State) : (withCommandWord w s).ibuf = s.ibuf := rfl
@[simp] theorem withCommandWord_obuf (w : Word) (s : State) : (withCommandWord w s).obuf = s.obuf := rfl
@[simp] theorem withCommandWord_len (w : Word) (s : State) : (withCommandWord w s).len = s.len := rfl
@[simp] theorem withCommandWord_cap (w : Word) (s : State) : (withCommandWord w s).cap = s.cap := rfl
@[simp] theorem withCommandWord_busy (w : Word) (s : State) : (withCommandWord w s).busy = s.busy := rfl
@[simp] theorem withCommandWord_err (w : Word) (s : State) : (withCommandWord w s).err = s.err := rfl
@[simp] theorem withCommandWord_rsel (w : Word) (s : State) : (withCommandWord w s).rsel = s.rsel := rfl
@[simp] theorem withCommandWord_rlen (w : Word) (s : State) : (withCommandWord w s).rlen = s.rlen := rfl
@[simp] theorem withCommandWord_hash (w : Word) (s : State) : (withCommandWord w s).hash = s.hash := rfl
@[simp] theorem withCommandWord_ph (w : Word) (s : State) : (withCommandWord w s).ph = s.ph := rfl
@[simp] theorem withCommandWord_iCur (w : Word) (s : State) : (withCommandWord w s).iCur = s.iCur := rfl
@[simp] theorem withCommandWord_oCur (w : Word) (s : State) : (withCommandWord w s).oCur = s.oCur := rfl
@[simp] theorem withCommandWord_hs (w : Word) (s : State) : (withCommandWord w s).hs = s.hs := rfl
@[simp] theorem withCommandWord_agenda (w : Word) (s : State) : (withCommandWord w s).agenda = Script.cmdw w :: s.agenda := rfl
@[simp] theorem withCommandWord_returned (w : Word) (s : State) : (withCommandWord w s).returned = s.returned := rfl
@[simp] theorem withCommandWord_draws (w : Word) (s : State) : (withCommandWord w s).draws = s.draws := rfl
@[simp] theorem withCommandWord_epoch (w : Word) (s : State) : (withCommandWord w s).epoch = s.epoch := rfl

/-! ### popped -/

@[simp] theorem popped_ibuf (s : State) : (s.popped).ibuf = s.ibuf := rfl
@[simp] theorem popped_obuf (s : State) : (s.popped).obuf = s.obuf := rfl
@[simp] theorem popped_len (s : State) : (s.popped).len = s.len := rfl
@[simp] theorem popped_cap (s : State) : (s.popped).cap = s.cap := rfl
@[simp] theorem popped_busy (s : State) : (s.popped).busy = s.busy := rfl
@[simp] theorem popped_err (s : State) : (s.popped).err = s.err := rfl
@[simp] theorem popped_rsel (s : State) : (s.popped).rsel = s.rsel := rfl
@[simp] theorem popped_rlen (s : State) : (s.popped).rlen = s.rlen := rfl
@[simp] theorem popped_hash (s : State) : (s.popped).hash = s.hash := rfl
@[simp] theorem popped_ph (s : State) : (s.popped).ph = s.ph := rfl
@[simp] theorem popped_iCur (s : State) : (s.popped).iCur = s.iCur := rfl
@[simp] theorem popped_oCur (s : State) : (s.popped).oCur = s.oCur := rfl
@[simp] theorem popped_hs (s : State) : (s.popped).hs = s.hs := rfl
@[simp] theorem popped_agenda (s : State) : (s.popped).agenda = s.agenda.tail := rfl
@[simp] theorem popped_returned (s : State) : (s.popped).returned = s.returned := rfl
@[simp] theorem popped_draws (s : State) : (s.popped).draws = s.draws := rfl
@[simp] theorem popped_epoch (s : State) : (s.popped).epoch = s.epoch := rfl

/-! ### resetEvent -/

@[simp] theorem resetEvent_ibuf (s : State) : (resetEvent s).ibuf = [] := rfl
@[simp] theorem resetEvent_obuf (s : State) : (resetEvent s).obuf = [] := rfl
@[simp] theorem resetEvent_len (s : State) : (resetEvent s).len = 0 := rfl
@[simp] theorem resetEvent_cap (s : State) : (resetEvent s).cap = 510 := rfl
@[simp] theorem resetEvent_busy (s : State) : (resetEvent s).busy = false := rfl
@[simp] theorem resetEvent_err (s : State) : (resetEvent s).err = .ok := rfl
@[simp] theorem resetEvent_rsel (s : State) : (resetEvent s).rsel = .unchanged := rfl
@[simp] theorem resetEvent_rlen (s : State) : (resetEvent s).rlen = 0 := rfl
@[simp] theorem resetEvent_hash (s : State) : (resetEvent s).hash = 0 := rfl
@[simp] theorem resetEvent_ph (s : State) : (resetEvent s).ph = .idle := rfl
@[simp] theorem resetEvent_iCur (s : State) : (resetEvent s).iCur = Config.hiddenI s.draws := rfl
@[simp] theorem resetEvent_oCur (s : State) : (resetEvent s).oCur = Config.hiddenO s.draws := rfl
@[simp] theorem resetEvent_hs (s : State) : (resetEvent s).hs = if Config.hiddenHs s.draws then .obuf else .ibuf := rfl
@[simp] theorem resetEvent_agenda (s : State) : (resetEvent s).agenda = s.agenda := rfl
@[simp] theorem resetEvent_returned (s : State) : (resetEvent s).returned = s.returned := rfl
@[simp] theorem resetEvent_draws (s : State) : (resetEvent s).draws = s.draws + 1 := rfl
@[simp] theorem resetEvent_epoch (s : State) : (resetEvent s).epoch = s.epoch + 1 := rfl

/-! ### setByte -/

@[simp] theorem setByte_len (s : State) (b : Buf) (i : Nat) (v : Byte) : (s.setByte b i v).len = s.len := by
  cases b <;> rfl
@[simp] theorem setByte_cap (s : State) (b : Buf) (i : Nat) (v : Byte) : (s.setByte b i v).cap = s.cap := by
  cases b <;> rfl
@[simp] theorem setByte_busy (s : State) (b : Buf) (i : Nat) (v : Byte) : (s.setByte b i v).busy = s.busy := by
  cases b <;> rfl
@[simp] theorem setByte_err (s : State) (b : Buf) (i : Nat) (v : Byte) : (s.setByte b i v).err = s.err := by
  cases b <;> rfl
@[simp] theorem setByte_rsel (s : State) (b : Buf) (i : Nat) (v : Byte) : (s.setByte b i v).rsel = s.rsel := by
  cases b <;> rfl
@[simp] theorem setByte_rlen (s : State) (b : Buf) (i : Nat) (v : Byte) : (s.setByte b i v).rlen = s.rlen := by
  cases b <;> rfl
@[simp] theorem setByte_hash (s : State) (b : Buf) (i : Nat) (v : Byte) : (s.setByte b i v).hash = s.hash := by
  cases b <;> rfl
@[simp] theorem setByte_ph (s : State) (b : Buf) (i : Nat) (v : Byte) : (s.setByte b i v).ph = s.ph := by
  cases b <;> rfl
@[simp] theorem setByte_iCur (s : State) (b : Buf) (i : Nat) (v : Byte) : (s.setByte b i v).iCur = s.iCur := by
  cases b <;> rfl
@[simp] theorem setByte_oCur (s : State) (b : Buf) (i : Nat) (v : Byte) : (s.setByte b i v).oCur = s.oCur := by
  cases b <;> rfl
@[simp] theorem setByte_hs (s : State) (b : Buf) (i : Nat) (v : Byte) : (s.setByte b i v).hs = s.hs := by
  cases b <;> rfl
@[simp] theorem setByte_agenda (s : State) (b : Buf) (i : Nat) (v : Byte) : (s.setByte b i v).agenda = s.agenda := by
  cases b <;> rfl
@[simp] theorem setByte_returned (s : State) (b : Buf) (i : Nat) (v : Byte) : (s.setByte b i v).returned = s.returned := by
  cases b <;> rfl
@[simp] theorem setByte_draws (s : State) (b : Buf) (i : Nat) (v : Byte) : (s.setByte b i v).draws = s.draws := by
  cases b <;> rfl
@[simp] theorem setByte_epoch (s : State) (b : Buf) (i : Nat) (v : Byte) : (s.setByte b i v).epoch = s.epoch := by
  cases b <;> rfl
@[simp] theorem setByte_obuf_ibuf (s : State) (i : Nat) (v : Byte) : (s.setByte .obuf i v).ibuf = s.ibuf := rfl
@[simp] theorem setByte_obuf_obuf (s : State) (i : Nat) (v : Byte) :
    (s.setByte .obuf i v).obuf = s.obuf.store i v := rfl
@[simp] theorem setByte_ibuf_ibuf (s : State) (i : Nat) (v : Byte) :
    (s.setByte .ibuf i v).ibuf = s.ibuf.store i v := rfl
@[simp] theorem setByte_ibuf_obuf (s : State) (i : Nat) (v : Byte) : (s.setByte .ibuf i v).obuf = s.obuf := rfl

end Sys2Proof.Machine
end

