-- ==== Sys2Proof/Laws/Memory.lean ====
section
/-! SUPPORT. The laws of the buffers: a read after a write, the canonical form, and slices. -/

namespace Sys2Proof.Machine

/-! ### One byte -/

theorem lookup_store_self (m : Memory) (i : Nat) (b : Byte) : (m.store i b).lookup i = some b := by
  induction m with
  | nil => simp [Memory.store, Memory.lookup]
  | cons c m ih =>
    simp only [Memory.store]
    split
    · simp [Memory.lookup]
    · split
      · simp [Memory.lookup]
      · rename_i h
        simp [Memory.lookup, Ne.symm h, ih]

theorem lookup_store_of_ne (m : Memory) {i j : Nat} (b : Byte) (h : j ≠ i) :
    (m.store i b).lookup j = m.lookup j := by
  induction m with
  | nil => simp [Memory.store, Memory.lookup, Ne.symm h]
  | cons c m ih =>
    simp only [Memory.store]
    split
    · simp [Memory.lookup, Ne.symm h]
    · split
      · rename_i hc
        subst hc
        simp [Memory.lookup, Ne.symm h]
      · simp [Memory.lookup, ih]

theorem lookup_store (m : Memory) (i j : Nat) (b : Byte) :
    (m.store i b).lookup j = if j = i then some b else m.lookup j := by
  split
  · rename_i h
    rw [h, lookup_store_self]
  · rename_i h
    exact lookup_store_of_ne m b h

/-! ### The canonical form -/

theorem mem_store {m : Memory} {i : Nat} {b : Byte} {c : Host.Cell} (h : c ∈ m.store i b) :
    c = (i, b) ∨ c ∈ m := by
  induction m with
  | nil => exact .inl (by simpa [Memory.store] using h)
  | cons d m ih =>
    simp only [Memory.store] at h
    split at h
    · simpa using h
    · split at h
      · rcases List.mem_cons.1 h with h | h
        · exact .inl h
        · exact .inr (List.mem_cons_of_mem _ h)
      · rcases List.mem_cons.1 h with h | h
        · exact .inr (h ▸ List.mem_cons_self ..)
        · exact (ih h).imp_right (List.mem_cons_of_mem _)

/-- A write keeps the canonical form. -/
theorem store_wf {n : Nat} {m : Memory} (hm : m.wf n) {i : Nat} (b : Byte) (hi : i < n) :
    (m.store i b).wf n := by
  refine ⟨?_, fun c hc => ?_⟩
  · have hs := hm.1
    clear hm
    induction m with
    | nil => simp [Memory.store]
    | cons c m ih =>
      obtain ⟨hc, hm⟩ := List.pairwise_cons.1 hs
      simp only [Memory.store]
      split
      · rename_i hlt
        refine List.pairwise_cons.2 ⟨fun d hd => ?_, hs⟩
        rcases List.mem_cons.1 hd with rfl | hd
        · exact hlt
        · exact lt_trans hlt (hc d hd)
      · split
        · rename_i heq
          exact List.pairwise_cons.2 ⟨fun d hd => heq ▸ hc d hd, hm⟩
        · refine List.pairwise_cons.2 ⟨fun d hd => ?_, ih hm⟩
          rcases mem_store hd with rfl | hd
          · simp only
            omega
          · exact hc d hd
  · rcases mem_store hc with rfl | hc
    · exact hi
    · exact hm.2 c hc

/-! ### Through the state -/

@[simp] theorem select_ibuf (i o : Memory) : Buf.ibuf.select i o = i := rfl
@[simp] theorem select_obuf (i o : Memory) : Buf.obuf.select i o = o := rfl

theorem byteAt_setByte_self (s : State) (b : Buf) (i : Nat) (v : Byte) : (s.setByte b i v).byteAt b i = v := by
  cases b <;> simp [State.byteAt, readByte, State.setByte, State.cells, Buf.select, lookup_store_self]

theorem byteAt_setByte_of_ne (s : State) {b b' : Buf} {i j : Nat} (v : Byte) (h : b' ≠ b ∨ j ≠ i) :
    (s.setByte b i v).byteAt b' j = s.byteAt b' j := by
  cases b <;> cases b' <;>
    simp_all [State.byteAt, readByte, State.setByte, State.cells, Buf.select, lookup_store_of_ne]

/-- Reading one byte depends on its buffer and on the reset count only. -/
theorem byteAt_congr {s t : State} (b : Buf) (i : Nat) (h : t.cells b = s.cells b) (he : t.epoch = s.epoch) :
    t.byteAt b i = s.byteAt b i := by
  simp [State.byteAt, h, he]

theorem byteAt_ibuf_congr {s t : State} (h : t.ibuf = s.ibuf) (he : t.epoch = s.epoch) (i : Nat) :
    t.byteAt .ibuf i = s.byteAt .ibuf i :=
  byteAt_congr .ibuf i h he

theorem byteAt_obuf_congr {s t : State} (h : t.obuf = s.obuf) (he : t.epoch = s.epoch) (i : Nat) :
    t.byteAt .obuf i = s.byteAt .obuf i :=
  byteAt_congr .obuf i h he

/-! ### Slices -/

@[simp] theorem slice_zero (s : State) (b : Buf) (i : Nat) : s.slice b i 0 = [] := rfl

theorem slice_succ (s : State) (b : Buf) (i n : Nat) :
    s.slice b i (n + 1) = s.byteAt b i :: s.slice b (i + 1) n := rfl

@[simp] theorem slice_length (s : State) (b : Buf) (i n : Nat) : (s.slice b i n).length = n := by
  induction n generalizing i with
  | zero => rfl
  | succ n ih => simp [slice_succ, ih]

@[simp] theorem bytes_length (s : State) (b : Buf) (n : Nat) : (s.bytes b n).length = n := slice_length s b 0 n

@[simp] theorem operand_length (s : State) (b : Buf) : (s.operand b).length = s.len.toNat := bytes_length s b _

theorem slice_congr {s t : State} {b b' : Buf} {i n : Nat}
    (h : ∀ j, i ≤ j → j < i + n → t.byteAt b' j = s.byteAt b j) : t.slice b' i n = s.slice b i n := by
  induction n generalizing i with
  | zero => rfl
  | succ n ih =>
    rw [slice_succ, slice_succ, h i (le_refl i) (by omega), ih fun j h1 h2 => h j (by omega) (by omega)]

theorem bytes_congr {s t : State} {b b' : Buf} {n : Nat} (h : ∀ j, j < n → t.byteAt b' j = s.byteAt b j) :
    t.bytes b' n = s.bytes b n :=
  slice_congr fun j _ hj => h j (by omega)

theorem slice_append (s : State) (b : Buf) (i n k : Nat) :
    s.slice b i (n + k) = s.slice b i n ++ s.slice b (i + n) k := by
  induction n generalizing i with
  | zero => simp
  | succ n ih =>
    rw [Nat.add_right_comm, slice_succ, slice_succ, ih, Nat.add_right_comm i, Nat.add_assoc]
    rfl

theorem bytes_succ (s : State) (b : Buf) (n : Nat) : s.bytes b (n + 1) = s.bytes b n ++ [s.byteAt b n] := by
  simpa [State.bytes, slice_succ] using slice_append s b 0 n 1

theorem bytes_eq_append_slice (s : State) (b : Buf) {i n : Nat} (h : i ≤ n) :
    s.bytes b n = s.bytes b i ++ s.slice b i (n - i) := by
  have := slice_append s b 0 i (n - i)
  rwa [Nat.add_sub_cancel' h, Nat.zero_add] at this

theorem slice_cons (s : State) (b : Buf) {i n : Nat} (h : 0 < n) :
    s.slice b i n = s.byteAt b i :: s.slice b (i + 1) (n - 1) := by
  cases n with
  | zero => omega
  | succ n => rfl

theorem bytes_getElem? (s : State) (b : Buf) {i n : Nat} (h : i < n) : (s.bytes b n)[i]? = some (s.byteAt b i) := by
  rw [bytes_eq_append_slice s b (le_of_lt h), slice_cons s b (by omega),
    List.getElem?_append_right (by simp)]
  simp

theorem mem_bytes {s : State} {b : Buf} {n : Nat} {v : Byte} (h : v ∈ s.bytes b n) :
    ∃ i, i < n ∧ v = s.byteAt b i := by
  obtain ⟨i, hi⟩ := List.mem_iff_getElem?.1 h
  have hlt : i < n := by
    have := (List.getElem?_eq_some_iff.1 hi).1
    simpa using this
  rw [bytes_getElem? s b hlt] at hi
  exact ⟨i, hlt, (Option.some.inj hi).symm⟩

end Sys2Proof.Machine
end

