-- ==== Sys2Proof/Laws/Ops.lean ====
section
/-! SUPPORT. One lemma per shared operation: everything it can do when it answers a next state. -/

namespace Sys2Proof.Machine

/-! ### Buffer accesses of the units -/

theorem unitRead_of_lt {s : State} {b : Buf} {i : Nat} (k : Byte → Result) (h : i < b.size) :
    unitRead s b i k = k (s.byteAt b i) := by simp [unitRead, h]

theorem unitWrite_of_lt {s : State} {b : Buf} {i : Nat} (v : Byte) (h : i < b.size) :
    unitWrite s b i v = .next (s.setByte b i v) := by simp [unitWrite, h]

theorem unitRead_next {s t : State} {b : Buf} {i : Nat} {k : Byte → Result} (h : unitRead s b i k = .next t) :
    i < b.size ∧ k (s.byteAt b i) = .next t := by
  unfold unitRead at h
  split at h
  · exact ⟨‹_›, h⟩
  · cases h

theorem unitWrite_next {s t : State} {b : Buf} {i : Nat} {v : Byte} (h : unitWrite s b i v = .next t) :
    i < b.size ∧ t = s.setByte b i v := by
  unfold unitWrite at h
  split at h
  · cases h
    exact ⟨‹_›, rfl⟩
  · cases h

@[simp] theorem andThen_next (s : State) (k : State → Result) : Result.andThen (.next s) k = k s := rfl

theorem andThen_eq_next {r : Result} {k : State → Result} {t : State} (h : r.andThen k = .next t) :
    ∃ s, r = .next s ∧ k s = .next t := by
  cases r with
  | next s => exact ⟨s, rfl, h⟩
  | fault e => cases h
  | refused e => cases h

/-! ### Checks of a command -/

theorem unlessBusy_of_idle {s : State} (k : Result) (h : s.busy = false) : unlessBusy s k = k := by
  simp [unlessBusy, h]

theorem unlessBusy_of_busy {s : State} (k : Result) (h : s.busy = true) : unlessBusy s k = .next s := by
  simp [unlessBusy, h]

theorem withLength_of_le {limit : Nat} {s : State} (k : Result) (h : s.len.toNat ≤ limit) :
    withLength limit s k = k := by
  simp [withLength, lengthTooLarge, Nat.not_lt.2 h]

theorem withLength_of_gt {limit : Nat} {s : State} (k : Result) (h : limit < s.len.toNat) :
    withLength limit s k = .next (raiseErr .invalidLength s) := by
  simp [withLength, lengthTooLarge, h]

theorem withCapacity_of_le {s : State} (k : Result) (h : 2 * s.len.toNat ≤ s.cap.toNat) :
    withCapacity s k = k := by
  simp [withCapacity, capacityTooSmall, Nat.not_lt.2 h]

theorem withCapacity_of_gt {s : State} (k : Result) (h : s.cap.toNat < 2 * s.len.toNat) :
    withCapacity s k = .next (raiseErr .bufferTooSmall s) := by
  simp [withCapacity, capacityTooSmall, h]

/-! ### The commands -/

/-- Everything `ENC` can do: be dropped, be refused on its length or its capacity, be accepted. -/
theorem execEnc_cases {s t : State} (h : execEnc s = .next t) :
    (s.busy = true ∧ t = s) ∨
    (s.busy = false ∧ Config.charCap < s.len.toNat ∧ t = raiseErr .invalidLength s) ∨
    (s.busy = false ∧ s.len.toNat ≤ Config.charCap ∧ s.cap.toNat < 2 * s.len.toNat ∧
      t = raiseErr .bufferTooSmall s) ∨
    (s.busy = false ∧ s.len.toNat ≤ Config.charCap ∧ 2 * s.len.toNat ≤ s.cap.toNat ∧
      t = { acceptCommand .encScan s with oCur := 0 }) := by
  unfold execEnc at h
  cases hb : s.busy
  · rw [unlessBusy_of_idle _ hb] at h
    rcases Nat.lt_or_ge Config.charCap s.len.toNat with hl | hl
    · rw [withLength_of_gt _ hl] at h
      cases h
      exact .inr (.inl ⟨rfl, hl, rfl⟩)
    · rw [withLength_of_le _ hl] at h
      rcases Nat.lt_or_ge s.cap.toNat (2 * s.len.toNat) with hc | hc
      · rw [withCapacity_of_gt _ hc] at h
        cases h
        exact .inr (.inr (.inl ⟨rfl, hl, hc, rfl⟩))
      · rw [withCapacity_of_le _ hc] at h
        cases h
        exact .inr (.inr (.inr ⟨rfl, hl, hc, rfl⟩))
  · rw [unlessBusy_of_busy _ hb] at h
    cases h
    exact .inl ⟨rfl, rfl⟩

/-- Everything a hash command can do: be dropped, be refused on its length, be accepted. -/
theorem hashCommand_cases {b : Buf} {s t : State} (h : hashCommand b s = .next t) :
    (s.busy = true ∧ t = s) ∨
    (s.busy = false ∧ b.size < s.len.toNat ∧ t = raiseErr .invalidLength s) ∨
    (s.busy = false ∧ s.len.toNat ≤ b.size ∧ t = { acceptCommand .hshRun s with hs := b, hash := 0 }) := by
  unfold hashCommand at h
  cases hb : s.busy
  · rw [unlessBusy_of_idle _ hb] at h
    rcases Nat.lt_or_ge b.size s.len.toNat with hl | hl
    · rw [withLength_of_gt _ hl] at h
      cases h
      exact .inr (.inl ⟨rfl, hl, rfl⟩)
    · rw [withLength_of_le _ hl] at h
      cases h
      exact .inr (.inr ⟨rfl, hl, rfl⟩)
  · rw [unlessBusy_of_busy _ hb] at h
    cases h
    exact .inl ⟨rfl, rfl⟩

theorem exec_hashInstr (b : Buf) (s : State) : exec b.hashInstr s = hashCommand b s := by cases b <;> rfl

/-- Every command answers a next state. -/
theorem exec_answers_next (i : Instr) (s : State) : ∃ t, exec i s = .next t := by
  have hash : ∀ b, ∃ t, hashCommand b s = .next t := by
    intro b
    unfold hashCommand unlessBusy withLength
    split <;> [skip; split] <;> exact ⟨_, rfl⟩
  cases i with
  | enc =>
    simp only [exec, execEnc, unlessBusy, withLength, withCapacity]
    split <;> [skip; split <;> [skip; split]] <;> exact ⟨_, rfl⟩
  | hashI => exact hash .ibuf
  | hashO => exact hash .obuf

/-- A command word while busy is dropped, whatever the command. -/
theorem exec_of_busy (i : Instr) {s : State} (h : s.busy = true) : exec i s = .next s := by
  cases i <;> simp [exec, execEnc, execHashI, execHashO, hashCommand, unlessBusy, h]

end Sys2Proof.Machine
end

