-- ==== Sys2Proof/Laws/PerInstr.lean ====
section
/-! SUPPORT. Facts about commands as syntax, one lemma per constructor. -/

namespace Sys2Proof.Laws

/-- A command is well formed, its encoding is the opcode map's word, and a 32-bit table word with that value decodes to
it (spec/30_encoding.md R52). -/
def EncodesToTableWord.Statement (i : Instr) : Prop :=
  i.wf = true ∧ encode i = i.matchWord ∧ decodeTableWord 32 i.matchWord.toNat = some i

theorem EncodesToTableWord.enc : EncodesToTableWord.Statement .enc := by
  refine ⟨rfl, ?_, ?_⟩ <;> decide

theorem EncodesToTableWord.hashI : EncodesToTableWord.Statement .hashI := by
  refine ⟨rfl, ?_, ?_⟩ <;> decide

theorem EncodesToTableWord.hashO : EncodesToTableWord.Statement .hashO := by
  refine ⟨rfl, ?_, ?_⟩ <;> decide

end Sys2Proof.Laws
end

