-- ==== Sys2Proof/Laws/Step.lean ====
section
/-! SUPPORT. What a micro-step and a step can do, said once: every later proof about a next state takes these cases. -/

namespace Sys2Proof.Machine

/-! ### A micro-step -/

/-- Every way a micro-step answers a next state: one case per branch of R66, R67, R68 and R89, and the idle block. -/
inductive UnitMove (s : State) : State → Prop where
  | idle (hp : s.ph = .idle) : UnitMove s s
  | scanDone (hp : s.ph = .encScan) (hi : s.iCur = s.len) :
      UnitMove s { completeCommand s with rsel := .unchanged, rlen := s.len }
  | scanAscii (hp : s.ph = .encScan) (hi : s.iCur ≠ s.len) (hs : s.iCur.toNat < Config.charCap)
      (hb : isAscii (s.byteAt .ibuf s.iCur.toNat) = true) : UnitMove s { s with iCur := s.iCur + 1 }
  | scanHigh (hp : s.ph = .encScan) (hi : s.iCur ≠ s.len) (hs : s.iCur.toNat < Config.charCap)
      (hb : isAscii (s.byteAt .ibuf s.iCur.toNat) = false) : UnitMove s { s with ph := .encCopy }
  | copyByte (hp : s.ph = .encCopy) (hi : s.oCur < s.iCur) (hs : s.oCur.toNat < Config.charCap) :
      UnitMove s { s.setByte .obuf s.oCur.toNat (s.byteAt .ibuf s.oCur.toNat) with oCur := s.oCur + 1 }
  | copyDone (hp : s.ph = .encCopy) (hi : ¬ s.oCur < s.iCur) : UnitMove s { s with ph := .encXlat }
  | xlatDone (hp : s.ph = .encXlat) (hi : s.iCur = s.len) :
      UnitMove s { completeCommand s with rsel := .converted, rlen := s.oCur }
  | xlatAscii (hp : s.ph = .encXlat) (hi : s.iCur ≠ s.len) (hs : s.iCur.toNat < Config.charCap)
      (ho : s.oCur.toNat < Config.byteCap) (hb : isAscii (s.byteAt .ibuf s.iCur.toNat) = true) :
      UnitMove s { s.setByte .obuf s.oCur.toNat (s.byteAt .ibuf s.iCur.toNat) with
        oCur := s.oCur + 1, iCur := s.iCur + 1 }
  | xlatHigh (hp : s.ph = .encXlat) (hi : s.iCur ≠ s.len) (hs : s.iCur.toNat < Config.charCap)
      (ho : s.oCur.toNat + 1 < Config.byteCap) (hb : isAscii (s.byteAt .ibuf s.iCur.toNat) = false) :
      UnitMove s { (s.setByte .obuf s.oCur.toNat (leadOf (s.byteAt .ibuf s.iCur.toNat))).setByte .obuf
          (s.oCur.toNat + 1) (trailOf (s.byteAt .ibuf s.iCur.toNat)) with
        oCur := s.oCur + 2, iCur := s.iCur + 1 }
  | hashDone (hp : s.ph = .hshRun) (hi : s.iCur = s.len) : UnitMove s (completeCommand s)
  | hashPair (hp : s.ph = .hshRun) (hi : s.iCur ≠ s.len) (hn : s.iCur.toNat + 1 < s.len.toNat)
      (hl : isLead (s.byteAt s.hs s.iCur.toNat) = true)
      (hc : isContinuation (s.byteAt s.hs (s.iCur.toNat + 1)) = true) :
      UnitMove s (mixPair (s.byteAt s.hs s.iCur.toNat) (s.byteAt s.hs (s.iCur.toNat + 1)) s)
  | hashSingle (hp : s.ph = .hshRun) (hi : s.iCur ≠ s.len)
      (hn : ¬ (s.iCur.toNat + 1 < s.len.toNat ∧ isLead (s.byteAt s.hs s.iCur.toNat) = true ∧
        isContinuation (s.byteAt s.hs (s.iCur.toNat + 1)) = true)) :
      UnitMove s (mixSingle (s.byteAt s.hs s.iCur.toNat) s)

theorem encScanStep_move {s t : State} (hp : s.ph = .encScan) (h : encScanStep s = .next t) : UnitMove s t := by
  unfold encScanStep at h
  split at h
  · cases h
    exact .scanDone hp ‹_›
  · obtain ⟨hs, h⟩ := unitRead_next h
    split at h
    · cases h
      exact .scanAscii hp ‹_› hs ‹_›
    · cases h
      exact .scanHigh hp ‹_› hs (Bool.eq_false_iff.2 ‹_›)

theorem encCopyStep_move {s t : State} (hp : s.ph = .encCopy) (h : encCopyStep s = .next t) : UnitMove s t := by
  unfold encCopyStep at h
  split at h
  · obtain ⟨hs, h⟩ := unitRead_next h
    obtain ⟨u, hu, h⟩ := andThen_eq_next h
    obtain ⟨-, rfl⟩ := unitWrite_next hu
    cases h
    exact .copyByte hp ‹_› hs
  · cases h
    exact .copyDone hp ‹_›

theorem encXlatStep_move {s t : State} (hp : s.ph = .encXlat) (h : encXlatStep s = .next t) : UnitMove s t := by
  unfold encXlatStep at h
  split at h
  · cases h
    exact .xlatDone hp ‹_›
  · obtain ⟨hs, h⟩ := unitRead_next h
    split at h
    · obtain ⟨u, hu, h⟩ := andThen_eq_next h
      obtain ⟨ho, rfl⟩ := unitWrite_next hu
      cases h
      exact .xlatAscii hp ‹_› hs ho ‹_›
    · obtain ⟨u, hu, h⟩ := andThen_eq_next h
      obtain ⟨-, rfl⟩ := unitWrite_next hu
      obtain ⟨v, hv, h⟩ := andThen_eq_next h
      obtain ⟨ho, rfl⟩ := unitWrite_next hv
      cases h
      exact .xlatHigh hp ‹_› hs ho (Bool.eq_false_iff.2 ‹_›)

theorem hashRunStep_move {s t : State} (hp : s.ph = .hshRun) (h : hashRunStep s = .next t) : UnitMove s t := by
  unfold hashRunStep at h
  split at h
  · cases h
    exact .hashDone hp ‹_›
  · obtain ⟨-, h⟩ := unitRead_next h
    split at h
    · rename_i hn
      obtain ⟨-, h⟩ := unitRead_next h
      split at h
      · cases h
        exact .hashPair hp ‹_› hn.1 hn.2 ‹_›
      · rename_i hc
        cases h
        exact .hashSingle hp ‹_› fun hh => hc hh.2.2
    · rename_i hn
      cases h
      exact .hashSingle hp ‹_› fun hh => hn ⟨hh.1, hh.2.1⟩

/-- A micro-step that answers a next state is one of the moves. -/
theorem unitStep_move {s t : State} (h : unitStep s = .next t) : UnitMove s t := by
  unfold unitStep at h
  split at h
  · cases h
    exact .idle ‹_›
  · exact encScanStep_move ‹_› h
  · exact encCopyStep_move ‹_› h
  · exact encXlatStep_move ‹_› h
  · exact hashRunStep_move ‹_› h

/-! ### A command word -/

/-- Everything a command word can do. -/
inductive CommandMove (w : Word) (s : State) : State → Prop where
  | dropped (hb : s.busy = true) : CommandMove w s s
  | refused (hb : s.busy = false) (c : ErrCode) (hc : c ≠ .ok) : CommandMove w s (raiseErr c s)
  | encAccepted (hb : s.busy = false) (hd : decode w = .ok .enc) (hl : s.len.toNat ≤ Config.charCap)
      (hc : 2 * s.len.toNat ≤ s.cap.toNat) : CommandMove w s { acceptCommand .encScan s with oCur := 0 }
  | hashAccepted (hb : s.busy = false) (b : Buf) (hd : decode w = .ok b.hashInstr) (hl : s.len.toNat ≤ b.size) :
      CommandMove w s { acceptCommand .hshRun s with hs := b, hash := 0 }

theorem commandWrite_move {w : Word} {s t : State} (h : commandWrite w s = .next t) : CommandMove w s t := by
  have hash : ∀ b : Buf, decode w = .ok b.hashInstr → hashCommand b s = .next t → CommandMove w s t := by
    intro b hd h
    rcases hashCommand_cases h with ⟨hb, rfl⟩ | ⟨hb, -, rfl⟩ | ⟨hb, hl, rfl⟩
    · exact .dropped hb
    · exact .refused hb _ (by decide)
    · exact .hashAccepted hb b hd hl
  unfold commandWrite at h
  cases hb : s.busy
  · rw [unlessBusy_of_idle _ hb] at h
    split at h
    · rename_i i hd
      cases i with
      | enc =>
        rcases execEnc_cases h with ⟨hb, rfl⟩ | ⟨hb, -, rfl⟩ | ⟨hb, -, -, rfl⟩ | ⟨hb, hl, hc, rfl⟩
        · exact .dropped hb
        · exact .refused hb _ (by decide)
        · exact .refused hb _ (by decide)
        · exact .encAccepted hb hd hl hc
      | hashI => exact hash .ibuf hd h
      | hashO => exact hash .obuf hd h
    · cases h
      exact .refused hb _ (by decide)
  · rw [unlessBusy_of_busy _ hb] at h
    cases h
    exact .dropped hb

/-- A command word always answers a next state. -/
theorem commandWrite_answers_next (w : Word) (s : State) : ∃ t, commandWrite w s = .next t := by
  unfold commandWrite unlessBusy
  split
  · exact ⟨_, rfl⟩
  · split
    · exact exec_answers_next _ _
    · exact ⟨_, rfl⟩

/-! ### A step -/

/-- What a host line that is neither a command nor the unit's turn does to the block: nothing, or, when idle, one operand
write. -/
inductive HostWrite (s : State) : State → Prop where
  | none : HostWrite s s
  | len (hb : s.busy = false) (v : Count) : HostWrite s { s with len := v }
  | cap (hb : s.busy = false) (v : Count) : HostWrite s { s with cap := v }
  | byte (hb : s.busy = false) (b : Buf) (i : Nat) (v : Byte) (hi : i < b.size) : HostWrite s (s.setByte b i v)

/-- Everything a step can do: the unit's micro-step, the reset event, a command word, another line of the host. -/
inductive StepMove (s t : State) : Prop where
  | unit (hu : s.unitTurn = true) (h : unitStep s.turnState = .next t)
  | reset (hr : s.resetTurn = true) (h : t = resetEvent s.popped)
  | command (w : Word) (hu : s.unitTurn = false) (hr : s.resetTurn = false) (hw : s.presentedWord = some w)
      (h : commandWrite w s.popped = .next t)
  | host (hu : s.unitTurn = false) (hr : s.resetTurn = false) (hw : s.presentedWord = none) (u : State)
      (hh : HostWrite s u) (h : SameBlock u t) (ha : s.agenda ≠ [])
      (hl : t.agenda.length ≤ s.agenda.tail.length)

theorem hostRegRead_sameBlock (r : Reg) (s : State) : SameBlock s (hostRegRead r s) := by
  unfold hostRegRead
  split <;> rfl

theorem hostRegRead_agenda (r : Reg) (s : State) : (hostRegRead r s).agenda = s.agenda := by
  unfold hostRegRead
  split <;> rfl

theorem hostBufRead_sameBlock (b : Buf) (i : Nat) (s : State) : SameBlock s (hostBufRead b i s) := by
  unfold hostBufRead
  split <;> rfl

theorem hostBufRead_agenda (b : Buf) (i : Nat) (s : State) : (hostBufRead b i s).agenda = s.agenda := by
  unfold hostBufRead
  split <;> rfl

/-- A register write of the host other than to `CMD`, as a host write with some agenda. -/
theorem hostRegWrite_write (r : Reg) (v : Word) (s : State) (a : List Event) :
    ∃ u, HostWrite s u ∧ hostRegWrite r v { s with agenda := a } = { u with agenda := a } := by
  by_cases hb : s.busy = true
  · exact ⟨s, .none, by cases r <;> simp [hostRegWrite, hb]⟩
  · have hf : s.busy = false := Bool.eq_false_iff.2 hb
    cases r
    case len => exact ⟨_, .len hf (v.extractLsb' 0 10), by simp only [hostRegWrite, if_neg hb]⟩
    case cap => exact ⟨_, .cap hf (v.extractLsb' 0 10), by simp only [hostRegWrite, if_neg hb]⟩
    all_goals exact ⟨s, .none, rfl⟩

theorem hostBufWrite_write {b : Buf} {i : Nat} (hi : i < b.size) (v : Byte) (s : State) (a : List Event) :
    ∃ u, HostWrite s u ∧ hostBufWrite b i v { s with agenda := a } = { u with agenda := a } := by
  cases hb : s.busy
  · exact ⟨_, .byte hb b i v hi, by cases b <;> simp [hostBufWrite, hb, State.setByte]⟩
  · exact ⟨s, .none, by simp [hostBufWrite, hb]⟩

theorem sameBlock_agenda (u : State) (a : List Event) : SameBlock u { u with agenda := a } := rfl

theorem SameBlock.of_agenda {s t : State} {a : List Event} (h : SameBlock { s with agenda := a } t) :
    SameBlock s t := by
  rw [SameBlock] at *
  simpa using h

/-- A move that is no write of `CMD`, made in a state whose agenda is `a`. -/
theorem runMove_host {m : Move} {s t : State} {a : List Event} (hm : ∀ w, m ≠ .regWrite .cmd w)
    (h : runMove m { s with agenda := a } = .next t) :
    ∃ u, HostWrite s u ∧ SameBlock u t ∧ t.agenda = a := by
  unfold runMove at h
  split at h
  · rename_i hwf
    cases m with
    | regRead r =>
      cases h
      exact ⟨s, .none, (hostRegRead_sameBlock r _).of_agenda, hostRegRead_agenda r _⟩
    | regWrite r v =>
      have hr : r ≠ .cmd := fun he => hm v (he ▸ rfl)
      obtain ⟨u, hu, he⟩ := hostRegWrite_write r v s a
      have ht : t = hostRegWrite r v { s with agenda := a } := by
        cases r <;> first | exact absurd rfl hr | (cases h; rfl)
      rw [ht, he]
      exact ⟨u, hu, rfl, rfl⟩
    | bufRead b i =>
      cases h
      exact ⟨s, .none, (hostBufRead_sameBlock b i _).of_agenda, hostBufRead_agenda b i _⟩
    | bufWrite b i v =>
      obtain ⟨u, hu, he⟩ := hostBufWrite_write (by simpa [Move.wf] using hwf) v s a
      cases h
      rw [he]
      exact ⟨u, hu, rfl, rfl⟩
  · cases h

/-- A move that is a write of `CMD` is a command word. -/
theorem runMove_cmd (w : Word) (s : State) : runMove (.regWrite .cmd w) s = commandWrite w s := rfl

/-- The register at offset 0x000 is `CMD`, and only there. -/
theorem regAt_eq_cmd {off : Nat} (h : regAt off = some .cmd) : off = 0 := by
  have := List.find?_some h
  exact (beq_iff_eq.1 this).symm

/-- An access that stands for a write of `CMD` is a 32-bit store at offset 0. -/
theorem toMove_eq_cmd {a : Access} {w : Word} (h : a.toMove = some (.regWrite .cmd w)) : a = .store32 0 w := by
  cases a <;> simp only [Access.toMove, Option.map_eq_some_iff, reduceCtorEq, and_false, exists_false,
    Move.regWrite.injEq] at h
  obtain ⟨r, hr, rfl, rfl⟩ := h
  rw [regAt_eq_cmd hr]

theorem stopOnErrorLine_sameBlock (s : State) : SameBlock s (stopOnErrorLine s) := by
  unfold stopOnErrorLine
  simp only
  split <;> rfl

theorem stopOnErrorLine_agenda (s : State) : (stopOnErrorLine s).agenda.length ≤ s.agenda.length := by
  unfold stopOnErrorLine
  simp only
  split
  · simpa [hostRegRead_agenda] using List.length_filter_le _ _
  · simp [hostRegRead_agenda]

/-- A step that answers a next state is one of the moves. -/
theorem step_move {s t : State} (h : step s = .next t) : StepMove s t := by
  unfold step nextTransition at h
  cases ha : s.agenda with
  | nil =>
    rw [ha] at h
    exact .unit (by simp [State.unitTurn, ha]) (by simpa [State.turnState, ha] using h)
  | cons e rest =>
    rw [ha] at h
    simp only at h
    have hpop : s.popped = { s with agenda := rest } := by simp [State.popped, ha]
    cases e with
    | move m =>
      by_cases hc : ∃ w, m = .regWrite .cmd w
      · obtain ⟨w, rfl⟩ := hc
        exact .command w (by simp [State.unitTurn, ha]) (by simp [State.resetTurn, ha])
          (by simp [State.presentedWord, ha]) (hpop ▸ h)
      · simp only [not_exists] at hc
        obtain ⟨u, hu, hsb, hta⟩ := runMove_host hc h
        refine .host (by simp [State.unitTurn, ha]) (by simp [State.resetTurn, ha]) ?_ u hu hsb (by simp [ha])
          (by simp [ha, hta])
        unfold State.presentedWord
        rw [ha]
        split <;> simp_all
    | access a =>
      simp only [runEvent, runAccess] at h
      split at h
      · rename_i m hm
        by_cases hc : ∃ w, m = .regWrite .cmd w
        · obtain ⟨w, rfl⟩ := hc
          obtain rfl := toMove_eq_cmd hm
          exact .command w (by simp [State.unitTurn, ha]) (by simp [State.resetTurn, ha])
            (by simp [State.presentedWord, ha]) (hpop ▸ h)
        · simp only [not_exists] at hc
          obtain ⟨u, hu, hsb, hta⟩ := runMove_host hc h
          refine .host (by simp [State.unitTurn, ha]) (by simp [State.resetTurn, ha]) ?_ u hu hsb (by simp [ha])
            (by simp [ha, hta])
          unfold State.presentedWord
          rw [ha]
          split
          · simp_all
          · rename_i w _ heq
            simp only [List.cons.injEq, Event.access.injEq] at heq
            obtain ⟨rfl, -⟩ := heq
            exact absurd (Option.some.inj (hm.symm.trans rfl)) (hc w)
          · simp_all
          · rfl
      · cases h
    | unitStep =>
      exact .unit (by simp [State.unitTurn, ha]) (by simp only [State.turnState, ha]; exact h)
    | reset =>
      cases h
      exact .reset (by simp [State.resetTurn, ha]) (by rw [hpop])
    | wait =>
      simp only [runEvent, runWait] at h
      split at h
      · rename_i hb
        refine .unit (by simpa [State.unitTurn, ha] using hb) ?_
        have : s.turnState = { s with agenda := .wait :: rest } := by
          simp only [State.turnState, ha]
          rw [← ha]
        rw [this]
        exact h
      · rename_i hb
        cases h
        exact .host (by simpa [State.unitTurn, ha] using hb) (by simp [State.resetTurn, ha])
          (by simp [State.presentedWord, ha]) s .none (hostRegRead_sameBlock _ _).of_agenda (by simp [ha])
          (by simp [ha, hostRegRead_agenda])
    | stopOnError =>
      cases h
      exact .host (by simp [State.unitTurn, ha]) (by simp [State.resetTurn, ha])
        (by simp [State.presentedWord, ha]) s .none (stopOnErrorLine_sameBlock _).of_agenda (by simp [ha])
        (by simpa [ha] using stopOnErrorLine_agenda { s with agenda := rest })
    | lenFromRead =>
      simp only [runEvent, runLenFromRead] at h
      split at h
      · obtain ⟨u, hu, hsb, hta⟩ := runMove_host (by simp) h
        exact .host (by simp [State.unitTurn, ha]) (by simp [State.resetTurn, ha])
          (by simp [State.presentedWord, ha]) u hu hsb (by simp [ha]) (by simp [ha, hta])
      · cases h
    | hashFromRead =>
      simp only [runEvent, runHashFromRead] at h
      split at h
      · rename_i hret
        exact .command _ (by simp [State.unitTurn, ha]) (by simp [State.resetTurn, ha])
          (by simp only [State.presentedWord, ha, hret]) (hpop ▸ h)
      · cases h

/-! ### Runs -/

theorem runsTo_succ {n : Nat} {s t u : State} (h : step s = .next t) (hr : RunsTo n t u) : RunsTo (n + 1) s u :=
  ⟨t, h, hr⟩

theorem runsTo_add {n m : Nat} {s t u : State} (h : RunsTo n s t) (hr : RunsTo m t u) : RunsTo (n + m) s u := by
  induction n generalizing s with
  | zero =>
    cases h
    rwa [Nat.zero_add]
  | succ n ih =>
    obtain ⟨v, hv, hs⟩ := h
    rw [Nat.add_right_comm]
    exact ⟨v, hv, ih hs⟩

theorem run_of_step_next (M : Host.Core) (n : Nat) {s t : M.State} (h : M.step s = .next t) :
    M.run (n + 1) s = M.run n t :=
  show (match M.step s with
    | .next u => M.run n u
    | .fault r => .fault r
    | .refused r => .refused r) = _ by rw [h]

/-- A run of the statements is a run of the host's interface. -/
theorem runsTo_run {n : Nat} :
    ∀ {s t : State}, RunsTo n s t → Host.Core.run Sys2Proof.core n s = .next t := by
  induction n with
  | zero => exact fun h => congrArg Host.Outcome.next h
  | succ n ih => exact fun ⟨_, hu, h⟩ => (run_of_step_next Sys2Proof.core n hu).trans (ih h)

/-! ### The window map -/

theorem regAt_iff (off : Nat) (r : Reg) : regAt off = some r ↔ off = r.offset := by
  constructor
  · intro h
    have h := List.find?_some h
    simp only [beq_iff_eq] at h
    exact h.symm
  · rintro rfl
    cases r <;> rfl

theorem bufAt_iff (off : Nat) (b : Buf) (i : Nat) :
    bufAt off = some (b, i) ↔ i < b.size ∧ off = b.offset + i := by
  have h1 : Buf.ibuf.size = 255 := rfl
  have h2 : Buf.obuf.size = 510 := rfl
  have h3 : Buf.ibuf.offset = 0x100 := rfl
  have h4 : Buf.obuf.offset = 0x200 := rfl
  unfold bufAt
  by_cases hi : 0x100 ≤ off ∧ off < 0x100 + Buf.ibuf.size
  · rw [if_pos hi]
    cases b <;> simp only [Option.some.injEq, Prod.mk.injEq, reduceCtorEq, true_and, false_and, false_iff] <;> omega
  · rw [if_neg hi]
    by_cases ho : 0x200 ≤ off ∧ off < 0x200 + Buf.obuf.size
    · rw [if_pos ho]
      cases b <;> simp only [Option.some.injEq, Prod.mk.injEq, reduceCtorEq, true_and, false_and, false_iff] <;> omega
    · rw [if_neg ho]
      cases b <;> simp only [reduceCtorEq, false_iff] <;> omega

end Sys2Proof.Machine
end

