-- ==== Sys2Proof/Tests/Slice0.lean ====
section
/-! SUPPORT. The model's own tests: the well-formedness smoke, decoding, one step or one function value each, with results
from spec/95_test_vectors.md; and for every statement with hypotheses a concrete witness that meets them. -/

namespace Sys2Proof.Tests

open Sys2Proof Sys2Proof.Machine

/-! ### States -/

/-- An idle block with `IBUF[0..LEN) = x`, everything else as after reset, and a given agenda. -/
def idleWith (x : List Byte) (agenda : List Event) : State :=
  { State.reset with ibuf := Memory.storeSeq [] 0 x, len := BitVec.ofNat 10 x.length, agenda := agenda }

/-- An idle block that is presented a command word. -/
def presenting (x : List Byte) (w : Word) : State := idleWith x [Script.cmdw w]

/-- An idle block with operands `LEN` and `CAP`. -/
def declaring (len cap : Count) : State := { State.reset with len := len, cap := cap }

/-- The encoder at work on `41 E9`, at the start of a phase. -/
def encoding (ph : Phase) (i o : Count) (out : List Byte) (agenda : List Event) : State :=
  { idleWith [0x41#8, 0xE9#8] agenda with
    obuf := Memory.storeSeq [] 0 out, busy := true, ph := ph, iCur := i, oCur := o }

/-- The hasher at work on `x` in `IBUF`. -/
def hashing (x : List Byte) (i : Count) (hash : Word) (agenda : List Event) : State :=
  { idleWith x agenda with busy := true, ph := .hshRun, iCur := i, hash := hash }

/-- The next state of a step, if it has one. -/
def after (r : Result) : Option State := r.state?

/-- The refusal of a step, if it has one. -/
def refusalOf (r : Result) : Option Refusal :=
  match r with
  | .next _ => none
  | .fault _ => none
  | .refused e => some e

/-! ### Well-formedness -/

theorem test_wf_commands : Instr.enc.wf = true ∧ Instr.hashI.wf = true ∧ Instr.hashO.wf = true := by decide

theorem test_wf_refuses_ibuf_read_at_255 : (Move.bufRead .ibuf 255).wf = false ∧ (Move.bufRead .ibuf 254).wf = true := by
  decide

theorem test_wf_refuses_ibuf_write_at_255 :
    (Move.bufWrite .ibuf 255 0).wf = false ∧ (Move.bufWrite .ibuf 254 0).wf = true := by decide

theorem test_wf_refuses_obuf_read_at_510 : (Move.bufRead .obuf 510).wf = false ∧ (Move.bufRead .obuf 509).wf = true := by
  decide

theorem test_wf_refuses_obuf_write_at_510 :
    (Move.bufWrite .obuf 510 0).wf = false ∧ (Move.bufWrite .obuf 509 0).wf = true := by decide

theorem test_wf_memory_order : ¬ Memory.wf 255 [(1, 0), (0, 0)] ∧ ¬ Memory.wf 255 [(0, 0), (0, 1)] := by decide

theorem test_wf_memory_range : ¬ Memory.wf 255 [(255, 0)] ∧ Memory.wf 255 [(0, 1), (254, 0)] := by decide

/-! ### Decoding: words written out from R50 (section 4.1 of the vectors) -/

theorem test_decode_enc : decode 0b00000000000000000000000_0_00000001#32 = .ok .enc := by decide

theorem test_decode_hashI : decode 0b00000000000000000000000_0_00000010#32 = .ok .hashI := by decide

theorem test_decode_hashO : decode 0b00000000000000000000000_1_00000010#32 = .ok .hashO := by decide

theorem test_decode_illegal_opcode :
    decode 0x00000000#32 = .error .unknownOpcode ∧ decode 0x00000003#32 = .error .unknownOpcode ∧
    decode 0x000000FF#32 = .error .unknownOpcode := by decide

theorem test_decode_illegal_source : decode 0x00000101#32 = .error .encWithSource := by decide

theorem test_decode_illegal_zero_field :
    decode 0x00000201#32 = .error .nonzeroZero ∧ decode 0x80000002#32 = .error .nonzeroZero := by decide

theorem test_encode : encode .enc = 0x00000001#32 ∧ encode .hashI = 0x00000002#32 ∧ encode .hashO = 0x00000102#32 := by
  decide

theorem test_decodeTableWord :
    decodeTableWord 32 0x00000001 = some .enc ∧ decodeTableWord 32 0x00000002 = some .hashI ∧
    decodeTableWord 32 0x00000102 = some .hashO ∧ decodeTableWord 32 0x00000003 = none ∧
    decodeTableWord 64 0x00000001 = none := by decide

/-- The word that `withFetchWord` places is the first thing that runs after reset. -/
theorem test_first_command_after_reset :
    (after (step (State.reset.withFetchWord 32 0x00000102))).map (fun t => (t.ph, t.hs, t.busy)) =
      some (Phase.hshRun, Buf.obuf, true) := by decide

/-! ### The commands (vectors A4, A5, A7; R88) -/

theorem test_enc_accepts_exact_capacity :
    (after (exec .enc (declaring 255 510))).map statusWord = some 0x00000001#32 := by decide

theorem test_enc_refuses :
    (after (exec .enc (declaring 255 509))).map statusWord = some 0x00000020#32 ∧
    (after (exec .enc (declaring 256 1023))).map statusWord = some 0x00000010#32 := by decide

theorem test_hashI_length_limit :
    (after (exec .hashI (declaring 255 0))).map statusWord = some 0x00000001#32 ∧
    (after (exec .hashI (declaring 256 0))).map statusWord = some 0x00000010#32 := by decide

theorem test_hashO_length_limit :
    (after (exec .hashO (declaring 510 0))).map statusWord = some 0x00000001#32 ∧
    (after (exec .hashO (declaring 511 0))).map statusWord = some 0x00000010#32 := by decide

/-! ### The units -/

/-- The two bytes of `E9`, `C3 A9`, written in one micro-step (R68). -/
theorem test_xlat_two_bytes :
    (after (unitStep (encoding .encXlat 1 1 [0x41#8] []))).map (fun t => (t.obuf, t.iCur, t.oCur)) =
      some ([(0, 0x41#8), (1, 0xC3#8), (2, 0xA9#8)], 2, 3) := by decide

/-- A fold at the end of the input, and a lead byte that has no next byte (vectors H16, H21). -/
theorem test_hash_step :
    (after (unitStep (hashing [0xC2#8, 0xA9#8] 0 0 []))).map (fun t => (t.hash, t.iCur)) = some (0x000000A9#32, 2) ∧
    (after (unitStep (hashing [0xC2#8] 0 0 []))).map (fun t => (t.hash, t.iCur)) = some (0x000000C2#32, 1) := by decide

/-! ### The functions (vectors E1, E3, E8, E11; H1, H13, H25, H33, H38, H39, H42) -/

theorem test_encode_name_unchanged :
    encodeName [] = (.unchanged, []) ∧ encodeName [0x7F#8] = (.unchanged, [0x7F#8]) := by decide

theorem test_encode_name_converted :
    encodeName [0xCE#8, 0xA9#8] = (.converted, [0xC3#8, 0x8E#8, 0xC2#8, 0xA9#8]) ∧
    encodeName [0x41#8, 0xC2#8, 0xA9#8] = (.converted, [0x41#8, 0xC3#8, 0x82#8, 0xC2#8, 0xA9#8]) := by decide

theorem test_units :
    units [0xC2#8, 0xC3#8, 0xA9#8, 0x80#8] = [0xC2#8, 0xE9#8, 0x80#8] ∧ units [0xC2#8, 0x7F#8] = [0xC2#8, 0x7F#8] := by
  decide

theorem test_hash_long_and_empty :
    hashName [0x61#8, 0x62#8, 0x63#8, 0x64#8, 0x65#8, 0x66#8, 0x67#8, 0x68#8] = 0x089ABAA8#32 ∧ hashName [] = 0 := by
  decide

theorem test_hash_wraps_to_zero :
    hashName [0xF0#8, 0xF0#8, 0xF0#8, 0xF0#8, 0xF0#8, 0xFF#8, 0x10#8] = 0 := by decide

theorem test_hash_fold_pattern :
    hashName [0x41#8, 0xC2#8, 0xA9#8] = 0x000004B9#32 ∧
    hashName [0x41#8, 0xC3#8, 0x82#8, 0xC2#8, 0xA9#8] = 0x00004DC9#32 := by decide

/-- Steps of vectors E9, E8 and H37 (R74, R96). -/
theorem test_step_counts :
    encSteps [0x63#8, 0x61#8, 0x66#8, 0xE9#8] = 10 ∧ encSteps [0xCE#8, 0xA9#8] = 5 ∧
    hashSteps [0x63#8, 0x61#8, 0x66#8, 0xC3#8, 0xA9#8] = 5 := by decide

/-! ### The host -/

theorem test_window_boundaries :
    (Access.load8 0x0FF).toMove = none ∧ (Access.load8 0x100).toMove = some (.bufRead .ibuf 0) ∧
    (Access.load8 0x1FE).toMove = some (.bufRead .ibuf 254) ∧ (Access.load8 0x1FF).toMove = none ∧
    (Access.store8 0x3FD 0).toMove = some (.bufWrite .obuf 509 0) ∧ (Access.store8 0x3FE 0).toMove = none ∧
    (Access.load32 0x018).toMove = some (.regRead .hash) ∧ (Access.load32 0x01C).toMove = none ∧
    (Access.load32 0x002).toMove = none ∧ (Access.load16 0x100).toMove = none := by decide

/-- A `LEN` write keeps bits 9:0; a write while busy is dropped (R24). -/
theorem test_len_write :
    (after (step (idleWith [] [Script.wr .len 0xFFFFFC05#32]))).map (·.len) = some 5 ∧
    (after (step (hashing [0x61#8] 0 0 [Script.wr .len 7#32]))).map (·.len) = some 1 := by decide

theorem test_status_read_while_busy :
    (after (step (hashing [0x61#8] 0 0 [Script.rd .status]))).map (·.returned) = some [Datum.word 0x00000001#32] := by decide

/-- A command word while busy is dropped, an illegal one too: `ERR` stays (R130). -/
theorem test_command_dropped_while_busy :
    after (step (hashing [0x61#8] 0 0 [Script.cmdw 0x00000003#32])) = some (hashing [0x61#8] 0 0 []) := by decide

theorem test_out_of_range_move_refused :
    refusalOf (step (idleWith [] [Script.rb .ibuf 255])) = some (.notAMove (.bufRead .ibuf 255)) := by decide

theorem test_reserved_access_refused :
    refusalOf (step (idleWith [] [.access (.load32 0x100)])) = some (.reservedAccess (.load32 0x100)) := by decide

/-! ### States that meet the invariant -/

theorem invariant_of_idle {s : State} (hi : Memory.wf 255 s.ibuf) (ho : Memory.wf 510 s.obuf) (hb : s.busy = false)
    (hp : s.ph = .idle) (hh : s.hash.toNat < 2 ^ 28) (hr : s.rlen.toNat ≤ 510) : Invariant s where
  ibuf_wf := hi
  obuf_wf := ho
  busy_iff := by simp [hb, hp]
  hash_lt := hh
  rlen_le := hr
  phase := by simp [PhaseInv, hp]

theorem idle_invariant (agenda : List Event) : Invariant (idleWith [0x41#8, 0xE9#8] agenda) :=
  invariant_of_idle (s := idleWith [0x41#8, 0xE9#8] agenda)
    (show Memory.wf 255 [(0, 0x41#8), (1, 0xE9#8)] by decide) (show Memory.wf 510 [] by decide) rfl rfl
    (show 0 < 2 ^ 28 by decide) (show 0 ≤ 510 by decide)

theorem scan_invariant (agenda : List Event) : Invariant (encoding .encScan 1 0 [] agenda) where
  ibuf_wf := show Memory.wf 255 [(0, 0x41#8), (1, 0xE9#8)] by decide
  obuf_wf := show Memory.wf 510 [] by decide
  busy_iff := ⟨nofun, fun _ => rfl⟩
  hash_lt := show 0 < 2 ^ 28 by decide
  rlen_le := show 0 ≤ 510 by decide
  phase := show ScanInv (encoding .encScan 1 0 [] agenda) from
    { err_ok := rfl
      len_le := show 2 ≤ 255 by decide
      cap_ge := show 2 * 2 ≤ 510 by decide
      i_le := show 1 ≤ 2 by decide
      o_zero := rfl
      scanned := show ((encoding .encScan 1 0 [] []).bytes .ibuf 1).all isAscii = true by decide }

theorem copy_invariant (agenda : List Event) : Invariant (encoding .encCopy 1 0 [0x00#8] agenda) where
  ibuf_wf := show Memory.wf 255 [(0, 0x41#8), (1, 0xE9#8)] by decide
  obuf_wf := show Memory.wf 510 [(0, 0x00#8)] by decide
  busy_iff := ⟨nofun, fun _ => rfl⟩
  hash_lt := show 0 < 2 ^ 28 by decide
  rlen_le := show 0 ≤ 510 by decide
  phase := show CopyInv (encoding .encCopy 1 0 [0x00#8] agenda) from
    { err_ok := rfl
      len_le := show 2 ≤ 255 by decide
      cap_ge := show 2 * 2 ≤ 510 by decide
      i_lt := show 1 < 2 by decide
      high := show isAscii ((encoding .encCopy 1 0 [0x00#8] []).byteAt .ibuf 1) = false by decide
      scanned := show ((encoding .encCopy 1 0 [0x00#8] []).bytes .ibuf 1).all isAscii = true by decide
      o_le := show 0 ≤ 1 by decide
      copied := rfl }

/-- The output of the finished slow path on `41 E9`. -/
def xlatDone (agenda : List Event) : State := encoding .encXlat 2 3 [0x41#8, 0xC3#8, 0xA9#8] agenda

theorem xlat_invariant (agenda : List Event) : Invariant (xlatDone agenda) where
  ibuf_wf := show Memory.wf 255 [(0, 0x41#8), (1, 0xE9#8)] by decide
  obuf_wf := show Memory.wf 510 [(0, 0x41#8), (1, 0xC3#8), (2, 0xA9#8)] by decide
  busy_iff := ⟨nofun, fun _ => rfl⟩
  hash_lt := show 0 < 2 ^ 28 by decide
  rlen_le := show 0 ≤ 510 by decide
  phase := show XlatInv (xlatDone agenda) from
    { err_ok := rfl
      len_le := show 2 ≤ 255 by decide
      cap_ge := show 2 * 2 ≤ 510 by decide
      i_le := show 2 ≤ 2 by decide
      written := show (xlatDone []).bytes .obuf 3 = xlatAll ((xlatDone []).bytes .ibuf 2) by decide
      o_eq := show 3 = 2 + highCount ((xlatDone []).bytes .ibuf 2) by decide
      slow := show ((xlatDone []).bytes .ibuf 2).all isAscii = false by decide }

/-- The hasher after its last unit of `C2 A9`. -/
def hashDone (agenda : List Event) : State := hashing [0xC2#8, 0xA9#8] 2 0xA9#32 agenda

theorem hash_invariant_anyObuf {agenda : List Event} {o : Memory} (ho : Memory.wf 510 o) :
    Invariant { hashDone agenda with obuf := o } where
  ibuf_wf := show Memory.wf 255 [(0, 0xC2#8), (1, 0xA9#8)] by decide
  obuf_wf := ho
  busy_iff := ⟨nofun, fun _ => rfl⟩
  hash_lt := show 0xA9 < 2 ^ 28 by decide
  rlen_le := show 0 ≤ 510 by decide
  phase := show HashInv { hashDone agenda with obuf := o } from
    { err_ok := rfl
      len_le := show 2 ≤ 255 by decide
      i_le := show 2 ≤ 2 by decide
      rest := show 0xA9#32 = hashName ((hashDone []).bytes .ibuf 2) by decide }

theorem hash_invariant (agenda : List Event) : Invariant (hashDone agenda) :=
  hash_invariant_anyObuf (agenda := agenda) (show Memory.wf 510 [] by decide)

/-! ### Witnesses: the hypotheses of each statement, met by concrete values, clause by clause at the ends of their ranges -/

theorem witness_IllegalWordsByField :
    (presenting [] 0x00000101#32).busy = false ∧ (presenting [] 0x00000101#32).presentedWord = some 0x00000101#32 ∧
    decode 0x00000101#32 = .error .encWithSource ∧ decode 0x00000003#32 = .error .unknownOpcode ∧
    decode 0xFFFFFF02#32 = .error .nonzeroZero := by decide

/-- The three ways a word is presented: a register move, a window store, the hash line of `atomhash` (both selects). -/
theorem witness_StepRunsDecodedCommand :
    (presenting [] 0x00000001#32).presentedWord = some 0x00000001#32 ∧
    (idleWith [] [.access (.store32 0 0x00000002#32)]).presentedWord = some 0x00000002#32 ∧
    ({ idleWith [] [.hashFromRead] with returned := [.word 0, .word 0] } : State).presentedWord = some 0x00000002#32 ∧
    ({ idleWith [] [.hashFromRead] with returned := [.word 0, .word 1] } : State).presentedWord = some 0x00000102#32 ∧
    decode 0x00000001#32 = .ok .enc ∧ decode 0x00000002#32 = .ok .hashI ∧ decode 0x00000102#32 = .ok .hashO ∧
    decodeTableWord 32 0x00000102 = some .hashO := by decide

/-- An idle block on each side of both checks (vectors A1, A4, A5, A7). -/
theorem witness_EncAcceptance :
    (declaring 0 0).busy = false ∧ 2 * (declaring 0 0).len.toNat ≤ (declaring 0 0).cap.toNat ∧
    (declaring 255 510).busy = false ∧ 2 * (declaring 255 510).len.toNat ≤ (declaring 255 510).cap.toNat ∧
    (declaring 255 509).busy = false ∧ (declaring 255 509).cap.toNat < 2 * (declaring 255 509).len.toNat ∧
    (declaring 256 1023).busy = false ∧ 255 < (declaring 256 1023).len.toNat ∧
    (presenting [] 0x00000001#32).busy = false ∧ (presenting [] 0x00000001#32).presentedWord = some 0x00000001#32 := by
  decide

theorem witness_HashAcceptance :
    (declaring 255 0).busy = false ∧ (declaring 255 0).len.toNat ≤ 255 ∧
    (declaring 256 0).busy = false ∧ 255 < (declaring 256 0).len.toNat ∧
    (declaring 510 0).busy = false ∧ (declaring 510 0).len.toNat ≤ 510 ∧
    (declaring 511 0).busy = false ∧ 510 < (declaring 511 0).len.toNat ∧
    (presenting [] 0x00000002#32).presentedWord = some 0x00000002#32 ∧
    (presenting [] 0x00000102#32).presentedWord = some 0x00000102#32 := by decide

/-- Each command accepted, refused, and dropped. -/
theorem witness_CommandFrame :
    (after (exec .enc (declaring 255 510))).map (·.err) = some .ok ∧
    (after (exec .enc (declaring 255 509))).map (·.err) = some .bufferTooSmall ∧
    (after (exec .hashI (declaring 256 0))).map (·.err) = some .invalidLength ∧
    (after (exec .hashI (declaring 255 0))).map (·.err) = some .ok ∧
    (after (exec .hashO (declaring 510 0))).map (·.err) = some .ok ∧
    after (exec .hashO (hashDone [])) = some (hashDone []) ∧ (hashDone []).busy = true := by decide

/-- An idle block and a presented word, on each side of each condition. -/
theorem witness_InvalidLengthExactly :
    (presenting [] 0x00000001#32).busy = false ∧ (presenting [] 0x00000001#32).presentedWord = some 0x00000001#32 ∧
    (after (step { declaring 256 510 with agenda := [Script.cmdw 0x00000001#32] })).map (·.err) = some .invalidLength ∧
    (after (step { declaring 510 0 with agenda := [Script.cmdw 0x00000102#32] })).map (·.err) = some .ok ∧
    (after (step { declaring 511 0 with agenda := [Script.cmdw 0x00000102#32] })).map (·.err) = some .invalidLength := by
  decide

theorem witness_BufferTooSmallExactly :
    (presenting [0x41#8] 0x00000001#32).busy = false ∧
    (presenting [0x41#8] 0x00000001#32).presentedWord = some 0x00000001#32 ∧
    (after (step { presenting [0x41#8] 0x00000001#32 with cap := 1 })).map (·.err) = some .bufferTooSmall ∧
    (after (step { presenting [0x41#8] 0x00000001#32 with cap := 2 })).map (·.err) = some .ok := by decide

theorem witness_IllegalCommandExactly :
    (presenting [] 0x00000003#32).busy = false ∧ (presenting [] 0x00000003#32).presentedWord = some 0x00000003#32 ∧
    (after (step (presenting [] 0x00000003#32))).map (·.err) = some .illegalCommand ∧
    (after (step (presenting [] 0x00000002#32))).map (·.err) = some .ok := by decide

theorem witness_ErrorEntryChangesOnlyErr :
    (presenting [] 0x00000000#32).busy = false ∧ (presenting [] 0x00000000#32).presentedWord = some 0x00000000#32 ∧
    after (step (presenting [] 0x00000000#32)) = some { (presenting [] 0x00000000#32).popped with err := .illegalCommand } := by
  decide

/-- A length and a capacity that are both wrong: the length is reported (vector A8). -/
theorem witness_ErrorPriority :
    (declaring 1023 0).busy = false ∧
    (after (step { declaring 1023 0 with agenda := [Script.cmdw 0x00000003#32] })).map (·.err) = some .illegalCommand ∧
    (after (step { declaring 1023 0 with agenda := [Script.cmdw 0x00000001#32] })).map (·.err) = some .invalidLength ∧
    (after (step { declaring 255 0 with agenda := [Script.cmdw 0x00000001#32] })).map (·.err) = some .bufferTooSmall ∧
    (after (step { declaring 510 0 with agenda := [Script.cmdw 0x00000102#32] })).map (·.err) = some .ok ∧
    (hashDone [Script.cmdw 0x00000003#32]).busy = true ∧
    (hashDone [Script.cmdw 0x00000003#32]).presentedWord = some 0x00000003#32 := by decide

theorem witness_CapAboveByteCapIsByteCap :
    510 ≤ (510 : Count).toNat ∧ 510 ≤ (511 : Count).toNat ∧ 510 ≤ (1023 : Count).toNat := by decide

/-- The three agendas on which the turn is the unit's. -/
theorem witness_UnitTurnIsMicroStep :
    (hashDone []).unitTurn = true ∧ (hashDone [.unitStep, .reset]).unitTurn = true ∧
    (hashDone [.wait, .reset]).unitTurn = true := by decide

/-- The end of the scan, a byte below 0x80, a byte at or above it. -/
theorem witness_ScanStep :
    (encoding .encScan 2 0 [] []).ph = .encScan ∧ (encoding .encScan 2 0 [] []).iCur = (encoding .encScan 2 0 [] []).len ∧
    (encoding .encScan 2 0 [] []).len.toNat ≤ 255 ∧
    (encoding .encScan 0 0 [] []).iCur ≠ (encoding .encScan 0 0 [] []).len ∧
    (encoding .encScan 0 0 [] []).byteAt .ibuf 0 < 0x80#8 ∧
    ¬ (encoding .encScan 1 0 [] []).byteAt .ibuf 1 < 0x80#8 := by decide

/-- A byte to copy, the end of the copy, and the entry to the phase. -/
theorem witness_CopyStep :
    (∃ s t, Invariant s ∧ s.ph = .encScan ∧ unitStep s = .next t ∧ t.ph = .encCopy) ∧
    (encoding .encCopy 1 0 [] []).ph = .encCopy ∧
    (encoding .encCopy 1 0 [] []).iCur.toNat ≤ (encoding .encCopy 1 0 [] []).len.toNat ∧
    (encoding .encCopy 1 0 [] []).len.toNat ≤ 255 ∧
    (encoding .encCopy 1 0 [] []).oCur.toNat < (encoding .encCopy 1 0 [] []).iCur.toNat ∧
    ¬ (encoding .encCopy 1 1 [0x41#8] []).oCur.toNat < (encoding .encCopy 1 1 [0x41#8] []).iCur.toNat :=
  ⟨⟨encoding .encScan 1 0 [] [], _, scan_invariant [], rfl, rfl, rfl⟩, by decide⟩

/-- The end of the copy of `41`, before `E9` is translated. -/
def copyDone : State := encoding .encCopy 1 1 [0x41#8] []

theorem copyDone_invariant : Invariant copyDone where
  ibuf_wf := show Memory.wf 255 [(0, 0x41#8), (1, 0xE9#8)] by decide
  obuf_wf := show Memory.wf 510 [(0, 0x41#8)] by decide
  busy_iff := ⟨nofun, fun _ => rfl⟩
  hash_lt := show 0 < 2 ^ 28 by decide
  rlen_le := show 0 ≤ 510 by decide
  phase := show CopyInv copyDone from
    { err_ok := rfl
      len_le := show 2 ≤ 255 by decide
      cap_ge := show 2 * 2 ≤ 510 by decide
      i_lt := show 1 < 2 by decide
      high := show isAscii (copyDone.byteAt .ibuf 1) = false by decide
      scanned := show (copyDone.bytes .ibuf 1).all isAscii = true by decide
      o_le := show 1 ≤ 1 by decide
      copied := show copyDone.bytes .obuf 1 = copyDone.bytes .ibuf 1 by decide }

/-- A byte below 0x80, a byte at or above it, the end, and the entry to the phase. -/
theorem witness_XlatStep :
    (∃ s t, Invariant s ∧ s.ph = .encCopy ∧ unitStep s = .next t ∧ t.ph = .encXlat) ∧
    (xlatDone []).ph = .encXlat ∧ (xlatDone []).iCur = (xlatDone []).len ∧ (xlatDone []).len.toNat ≤ 255 ∧
    (xlatDone []).oCur.toNat ≤ 2 * (xlatDone []).iCur.toNat ∧
    (encoding .encXlat 0 0 [] []).iCur ≠ (encoding .encXlat 0 0 [] []).len ∧
    (encoding .encXlat 0 0 [] []).oCur.toNat ≤ 2 * (encoding .encXlat 0 0 [] []).iCur.toNat ∧
    (encoding .encXlat 0 0 [] []).byteAt .ibuf 0 < 0x80#8 ∧
    (encoding .encXlat 1 1 [0x41#8] []).oCur.toNat ≤ 2 * (encoding .encXlat 1 1 [0x41#8] []).iCur.toNat ∧
    ¬ (encoding .encXlat 1 1 [0x41#8] []).byteAt .ibuf 1 < 0x80#8 :=
  ⟨⟨copyDone, _, copyDone_invariant, rfl, rfl, rfl⟩, by decide⟩

/-- A pair that folds, a lead byte with no next byte, the end. -/
theorem witness_HashRunStep :
    (hashing [0xC2#8, 0xA9#8] 0 0 []).ph = .hshRun ∧
    (hashing [0xC2#8, 0xA9#8] 0 0 []).iCur.toNat + 1 < (hashing [0xC2#8, 0xA9#8] 0 0 []).len.toNat ∧
    (hashing [0xC2#8, 0xA9#8] 0 0 []).len.toNat ≤ (hashing [0xC2#8, 0xA9#8] 0 0 []).hs.size ∧
    (hashing [0xC2#8, 0xA9#8] 0 0 []).byteAt .ibuf 0 &&& 0xFE#8 = 0xC2#8 ∧
    (hashing [0xC2#8, 0xA9#8] 0 0 []).byteAt .ibuf 1 &&& 0xC0#8 = 0x80#8 ∧
    ¬ (hashing [0xC2#8] 0 0 []).iCur.toNat + 1 < (hashing [0xC2#8] 0 0 []).len.toNat ∧
    (hashDone []).iCur = (hashDone []).len := by decide

theorem witness_PhasePaths :
    ∃ s t, Invariant s ∧ s.resetTurn = false ∧ step s = .next t ∧ s.ph = .encScan ∧ t.ph = .encCopy :=
  ⟨encoding .encScan 1 0 [] [], _, scan_invariant [], rfl, rfl, rfl, rfl⟩

theorem witness_OnlyDecodeOrResetWritesErr :
    (after (step (presenting [] 0x00000000#32))).map (·.err) = some .illegalCommand ∧
    (presenting [] 0x00000000#32).err = .ok ∧
    (after (step { presenting [] 0 with err := .illegalCommand, agenda := [.reset] })).map (·.err) = some .ok := by decide

/-- `HASH` changed by an acceptance, by a micro-step, by reset. -/
theorem witness_OnlyHasherWritesHash :
    (after (step { presenting [] 0x00000002#32 with hash := 7 })).map (·.hash) = some 0 ∧
    (after (step (hashing [0xC2#8, 0xA9#8] 0 0 []))).map (·.hash) = some 0x000000A9#32 ∧
    (after (step (hashDone [.reset]))).map (·.hash) = some 0 := by decide

theorem witness_OnlyEncCompletionWritesResult :
    (after (step (xlatDone []))).map (fun t => (t.rsel, t.rlen)) = some (ResultSel.converted, 3) ∧
    (xlatDone []).rsel = .unchanged ∧ (xlatDone []).rlen = 0 ∧
    (after (step { declaring 0 0 with rlen := 5, agenda := [.reset] })).map (·.rlen) = some 0 := by decide

theorem witness_OnlyHostWritesOperands :
    ∃ s t, step s = .next t ∧ ¬ SameOperands s t ∧ s.busy = false :=
  ⟨idleWith [] [Script.wr .len 5], { idleWith [] [] with len := 5 }, rfl, fun h => absurd h.1 (by decide), rfl⟩

theorem witness_OnlySlowPathOrHostWritesObuf :
    ∃ s t, step s = .next t ∧ ¬ SameFrom .obuf 0 s t ∧ s.unitTurn = true ∧ s.ph = .encCopy :=
  ⟨encoding .encCopy 1 0 [0x00#8] [], encoding .encCopy 1 1 [0x41#8] [], rfl,
    fun h => absurd (h 0 (le_refl 0)) (by decide), rfl, rfl⟩

theorem witness_UnitsWriteWithinCap :
    ∃ s t, Invariant s ∧ s.unitTurn = true ∧ step s = .next t ∧ t.byteAt .obuf 0 ≠ s.byteAt .obuf 0 :=
  ⟨encoding .encCopy 1 0 [0x00#8] [], encoding .encCopy 1 1 [0x41#8] [], copy_invariant [], rfl, rfl, by decide⟩

/-- The encoder with another `OBUF` and another `IBUF[LEN]`; the hasher of `IBUF` with another `OBUF` and `IBUF[LEN]`. -/
theorem witness_UnitsReadOnlyBelowLen :
    (∃ (s : State) (mi mo : Memory), Invariant s ∧ s.ph.isEnc = true ∧ mi ≠ s.ibuf ∧
      ({ s with ibuf := mi, obuf := mo } : State).byteAt .obuf 0 ≠ s.byteAt .obuf 0 ∧
      ∀ j, j < s.len.toNat → ({ s with ibuf := mi, obuf := mo } : State).byteAt .ibuf j = s.byteAt .ibuf j) ∧
    (∃ (s : State) (mi mo : Memory), Invariant s ∧ s.ph = .hshRun ∧ mi ≠ s.ibuf ∧
      ({ s with ibuf := mi, obuf := mo } : State).byteAt .obuf 0 ≠ s.byteAt .obuf 0 ∧
      ∀ j, j < s.len.toNat → ({ s with ibuf := mi, obuf := mo } : State).byteAt s.hs j = s.byteAt s.hs j) := by
  refine ⟨⟨encoding .encCopy 1 0 [0x00#8] [], [(0, 0x41#8), (1, 0xE9#8), (2, 0xFF#8)], [(0, 0x77#8)],
    copy_invariant [], rfl, by decide, by decide, fun j hj => ?_⟩,
    ⟨{ hashDone [] with obuf := [(0, 0x00#8)] }, [(0, 0xC2#8), (1, 0xA9#8), (2, 0xFF#8)], [(0, 0x77#8)],
      hash_invariant_anyObuf (by decide), rfl, by decide, by decide, fun j hj => ?_⟩⟩
  all_goals
    have hj : j < 2 := hj
    interval_cases j <;> rfl

theorem witness_EveryStepKeepsInvariant : ∃ s t, Invariant s ∧ step s = .next t ∧ s.ph = .hshRun ∧ t.ph = .idle :=
  ⟨hashDone [], _, hash_invariant [], rfl, rfl, rfl⟩

/-- Each of the three refusals, from a state that meets the invariant. -/
theorem witness_NoStepFaults :
    Invariant (idleWith [0x41#8, 0xE9#8] [Script.rb .obuf 510]) ∧
    refusalOf (step (idleWith [0x41#8, 0xE9#8] [Script.rb .obuf 510])) = some (.notAMove (.bufRead .obuf 510)) ∧
    refusalOf (step (idleWith [0x41#8, 0xE9#8] [.access (.load8 0x1FF)])) = some (.reservedAccess (.load8 0x1FF)) ∧
    refusalOf (step (idleWith [0x41#8, 0xE9#8] [.hashFromRead])) = some .noReadValue :=
  ⟨idle_invariant _, by decide, by decide, by decide⟩

/-- The longest input with the smallest capacity, and the empty input with none. -/
theorem witness_EncRunsToEncode :
    (declaring 255 510).busy = false ∧ (declaring 255 510).agenda = [] ∧ (declaring 255 510).len.toNat ≤ 255 ∧
    2 * (declaring 255 510).len.toNat ≤ (declaring 255 510).cap.toNat ∧
    (declaring 0 0).busy = false ∧ 2 * (declaring 0 0).len.toNat ≤ (declaring 0 0).cap.toNat := by decide

theorem witness_HashRunsToHash :
    (declaring 255 0).busy = false ∧ (declaring 255 0).agenda = [] ∧ (declaring 255 0).len.toNat ≤ Buf.ibuf.size ∧
    (declaring 510 0).busy = false ∧ (declaring 510 0).agenda = [] ∧ (declaring 510 0).len.toNat ≤ Buf.obuf.size := by
  decide

theorem witness_EncCompletionLeavesEncode :
    ∃ s t, Invariant s ∧ s.ph.isEnc = true ∧ s.resetTurn = false ∧ step s = .next t ∧ t.ph = .idle ∧ t.rlen.toNat = 3 :=
  ⟨xlatDone [.unitStep], _, xlat_invariant _, rfl, rfl, rfl, rfl, rfl⟩

theorem witness_HashCompletionLeavesHash :
    ∃ s t, Invariant s ∧ s.ph = .hshRun ∧ s.resetTurn = false ∧ step s = .next t ∧ t.ph = .idle ∧ t.hash = 0xA9#32 :=
  ⟨hashDone [.unitStep], _, hash_invariant _, rfl, rfl, rfl, rfl, rfl⟩

/-- An operand write, a byte write at the last index, and a script line, while busy. -/
theorem witness_BusyMovesChangeNothing :
    (hashDone [Script.wr .cap 0]).busy = true ∧
    (hashDone [Script.wr .cap 0]).agenda = .move (.regWrite .cap 0) :: [] ∧ (Move.regWrite .cap 0).wf = true ∧
    (hashDone [Script.wb .obuf 509 0]).agenda = .move (.bufWrite .obuf 509 0) :: [] ∧
    (Move.bufWrite .obuf 509 0).wf = true ∧ Invariant (hashDone [Script.wr .cap 0]) ∧
    ∃ s t, s.busy = true ∧ s.unitTurn = false ∧ s.resetTurn = false ∧ step s = .next t ∧ t ≠ s :=
  ⟨rfl, rfl, rfl, rfl, rfl, hash_invariant _, hashDone [.stopOnError], _, rfl, rfl, rfl, rfl, by decide⟩

theorem witness_WaitEnds :
    ∃ s rest, Invariant s ∧ s.agenda = .wait :: rest ∧ s.busy = true :=
  ⟨encoding .encScan 1 0 [] [.wait, .reset], [.reset], scan_invariant _, rfl, rfl⟩

/-- Both ends of each of the three cases: `ENC` accepted, too long, too little room; and the stopping line on both sides. -/
theorem witness_AtomhashLeavesPlainMixing :
    (idleWith [0x41#8, 0xE9#8] Script.atomhash).busy = false ∧
    (idleWith [0x41#8, 0xE9#8] Script.atomhash).len.toNat ≤ 255 ∧
    2 * (idleWith [0x41#8, 0xE9#8] Script.atomhash).len.toNat ≤ (idleWith [0x41#8, 0xE9#8] Script.atomhash).cap.toNat ∧
    ({ declaring 255 510 with agenda := Script.atomhash } : State).len.toNat ≤ 255 ∧
    2 * ({ declaring 255 510 with agenda := Script.atomhash } : State).len.toNat ≤
      ({ declaring 255 510 with agenda := Script.atomhash } : State).cap.toNat ∧
    ({ declaring 256 1023 with agenda := Script.atomhash } : State).busy = false ∧
    ({ declaring 256 1023 with agenda := Script.atomhash } : State).ph = .idle ∧
    255 < ({ declaring 256 1023 with agenda := Script.atomhash } : State).len.toNat ∧
    ({ declaring 255 509 with agenda := Script.atomhash } : State).ph = .idle ∧
    ({ declaring 255 509 with agenda := Script.atomhash } : State).cap.toNat <
      2 * ({ declaring 255 509 with agenda := Script.atomhash } : State).len.toNat ∧
    (idleWith [] [.stopOnError, .reset]).agenda = .stopOnError :: [.reset] ∧ (idleWith [] [.stopOnError]).err = .ok ∧
    ({ idleWith [] [.stopOnError] with err := .bufferTooSmall } : State).err ≠ .ok := by decide

/-- One name in `IBUF` and the same name in `OBUF`. -/
theorem witness_HashIsDeterministic :
    ∃ s s' : State, s.busy = false ∧ s'.busy = false ∧ s.agenda = [] ∧ s'.agenda = [] ∧ s.len = s'.len ∧
      s.len.toNat ≤ Buf.ibuf.size ∧ s'.len.toNat ≤ Buf.obuf.size ∧ s.ibuf ≠ s'.ibuf ∧
      (∀ j, j < s.len.toNat → s.byteAt .ibuf j = s'.byteAt .obuf j) := by
  refine ⟨idleWith [0x41#8, 0xE9#8] [], { declaring 2 0 with obuf := [(0, 0x41#8), (1, 0xE9#8)] }, rfl, rfl, rfl, rfl, rfl,
    by decide, by decide, by decide, fun j hj => ?_⟩
  have hj : j < 2 := hj
  interval_cases j <;> rfl

theorem witness_AsciiNameIsLeftAlone :
    (List.replicate 255 0x7F#8).length ≤ 255 ∧ (∀ b ∈ [0x00#8, 0x7F#8], b < 0x80#8) ∧
    ∃ s : State, s.busy = false ∧ s.agenda = [] ∧ s.len.toNat ≤ 255 ∧ 2 * s.len.toNat ≤ s.cap.toNat ∧
      s.len.toNat = 2 ∧ ∀ j, j < s.len.toNat → s.byteAt .ibuf j < 0x80#8 := by
  refine ⟨le_of_eq List.length_replicate, by decide, idleWith [0x00#8, 0x7F#8] [], rfl, rfl, by decide, by decide, by decide, fun j hj => ?_⟩
  have hj : j < 2 := hj
  interval_cases j <;> decide

theorem witness_EncodingLength :
    (List.replicate 255 0xE9#8).length ≤ 255 ∧
    ∃ s t, Invariant s ∧ s.ph.isEnc = true ∧ s.resetTurn = false ∧ step s = .next t ∧ t.ph = .idle :=
  ⟨le_of_eq List.length_replicate, xlatDone [], _, xlat_invariant _, rfl, rfl, rfl, rfl⟩

/-- A byte of each class, at its index. -/
theorem witness_EncodingIsMinimalUtf8 :
    [0x41#8, 0x80#8, 0xFF#8].length ≤ 255 ∧
    (encodeName [0x41#8, 0x80#8, 0xFF#8]).2[0]? = some 0x41#8 ∧ (encodeName [0x41#8, 0x80#8, 0xFF#8]).2[1]? = some 0xC2#8 ∧
    (encodeName [0x41#8, 0x80#8, 0xFF#8]).2[2]? = some 0x80#8 ∧ (encodeName [0x41#8, 0x80#8, 0xFF#8]).2[3]? = some 0xC3#8 ∧
    (encodeName [0x41#8, 0x80#8, 0xFF#8]).2[4]? = some 0xBF#8 := by decide

theorem witness_EncodingIsInjective :
    [0xE9#8].length ≤ 255 ∧ ([] ++ [0xE9#8]).length ≤ 255 ∧ encodeName [0xE9#8] = encodeName ([] ++ [0xE9#8]) := by decide

/-- The longest name, cut in two. -/
theorem witness_EncodingTagAndConcatenation :
    (List.replicate 254 0xE9#8 ++ [0x41#8]).length ≤ 255 := by
  rw [List.length_append, List.length_replicate]; exact le_refl 255

/-- Traces H-T1, with and without `g` (section 3.2 of the vectors). -/
theorem witness_MixingStep :
    0x06789AB6 = (0x006789A5 * 2 ^ 4 + 0x66) % 2 ^ 32 ∧ (0x06789AB6#32 &&& 0xF0000000#32) = 0 ∧
    0x6789ABC7 = (0x06789AB6 * 2 ^ 4 + 0x67) % 2 ^ 32 ∧ (0x6789ABC7#32 &&& 0xF0000000#32) = 0x60000000#32 ∧
    mix 0x06789AB6#32 0x67#8 = 0x0789ABA7#32 := by decide

theorem witness_UnitsCutGreedily :
    0xC2#8 &&& 0xFE#8 = 0xC2#8 ∧ 0x80#8 &&& 0xC0#8 = 0x80#8 ∧ 0xC3#8 &&& 0xFE#8 = 0xC2#8 ∧
    0xBF#8 &&& 0xC0#8 = 0x80#8 ∧ ¬ 0xC4#8 &&& 0xFE#8 = 0xC2#8 ∧ ¬ 0x7F#8 &&& 0xC0#8 = 0x80#8 := by decide

theorem witness_FoldEquivalence : 0x80#8 ≤ 0x80#8 ∧ 0x80#8 ≤ 0xFF#8 ∧ ¬ 0x80#8 ≤ 0x7F#8 := by decide

theorem witness_HashOfEncodingIsPlainMixing : (List.replicate 255 0xC3#8).length ≤ 255 :=
  le_of_eq List.length_replicate

theorem witness_HashStableWithoutFoldPattern :
    hasFoldPattern [0xC2#8, 0x7F#8, 0xE9#8] = false ∧ [0xC2#8, 0x7F#8, 0xE9#8].length ≤ 255 ∧
    hasFoldPattern [0x41#8, 0xC2#8, 0xA9#8] = true ∧ (∀ b ∈ [0x00#8, 0x7F#8], b < 0x80#8) := by decide

/-- Five units from six bytes. -/
theorem witness_ShortNamesHashToPlainSum :
    (units [0x68#8, 0x65#8, 0xC3#8, 0xA9#8, 0x6C#8, 0x6F#8]).length ≤ 5 ∧ (units []).length ≤ 5 := by decide

theorem witness_StatusWordFields : Invariant (hashDone []) ∧ statusBusy (statusWord (hashDone [])) = true :=
  ⟨hash_invariant [], by decide⟩

theorem witness_RegisterWrites :
    (idleWith [] [Script.wr .len 1023#32]).busy = false ∧
    (idleWith [] [Script.wr .len 1023#32]).agenda = Script.wr .len 1023#32 :: [] ∧
    (idleWith [] [Script.wr .cap 1024#32]).busy = false ∧
    (idleWith [] [Script.wr .cap 1024#32]).agenda = Script.wr .cap 1024#32 :: [] ∧
    (hashDone [Script.wr .hash 0]).agenda = Script.wr .hash 0 :: [] := by decide

/-- The last index of each buffer, idle and busy; a name that is loaded, and the longest that fits. -/
theorem witness_BufferWrites :
    254 < Buf.ibuf.size ∧ 509 < Buf.obuf.size ∧
    (idleWith [] [Script.wb .ibuf 254 0xFF]).agenda = Script.wb .ibuf 254 0xFF :: [] ∧
    (idleWith [] [Script.wb .ibuf 254 0xFF]).busy = false ∧
    (hashDone [Script.wb .obuf 509 0xFF]).agenda = Script.wb .obuf 509 0xFF :: [] ∧
    (hashDone [Script.wb .obuf 509 0xFF]).busy = true ∧
    (idleWith [] (Script.load .ibuf [0x41#8, 0xE9#8] ++ [.reset])).busy = false ∧
    (idleWith [] (Script.load .ibuf [0x41#8, 0xE9#8] ++ [.reset])).agenda =
      Script.load .ibuf [0x41#8, 0xE9#8] ++ [.reset] ∧
    [0x41#8, 0xE9#8].length ≤ Buf.ibuf.size ∧ (List.replicate 510 0#8).length ≤ Buf.obuf.size := by
  refine ⟨by decide, by decide, rfl, rfl, rfl, rfl, rfl, rfl, by decide, ?_⟩
  rw [List.length_replicate]; decide

/-- A register of each kind, busy and idle, and a byte. -/
theorem witness_DefinedReads :
    (hashDone [Script.rd .status]).agenda = Script.rd .status :: [] ∧ statusWord (hashDone [Script.rd .status]) = 1#32 ∧
    (declaring 1023 0).len.toNat = (0x000003FF#32).toNat ∧ (declaring 0 1023).cap.toNat = (0x000003FF#32).toNat ∧
    (idleWith [] [Script.rd .hash]).busy = false ∧ (idleWith [] [Script.rd .hash]).agenda = Script.rd .hash :: [] ∧
    (idleWith [] [Script.rd .rsel]).agenda = Script.rd .rsel :: [] ∧
    (0#32).toNat = (if (idleWith [] [Script.rd .rsel]).rsel = .converted then 1 else 0) ∧ 509 < Buf.obuf.size ∧
    (idleWith [] [Script.rb .obuf 509]).agenda = Script.rb .obuf 509 :: [] := by decide

theorem witness_BusyReadsReturnSomeValue :
    (hashDone [Script.rd .hash]).busy = true ∧ (hashDone [Script.rd .hash]).agenda = Script.rd .hash :: [] ∧
    254 < Buf.ibuf.size ∧ (hashDone [Script.rb .ibuf 254]).agenda = Script.rb .ibuf 254 :: [] := by decide

theorem witness_WindowMap :
    (idleWith [] [.access (.load8 0x3FD)]).agenda = .access (.load8 0x3FD) :: [] ∧
    (Access.load8 0x3FD).toMove = some (.bufRead .obuf 509) ∧ (Access.load8 0x3FE).toMove = none ∧
    (after (step (idleWith [] [.access (.load32 0x00C)]))).map (·.returned) = some [.word 510] := by decide

theorem witness_ResetEventRestoresRegisters : (hashDone [.reset]).agenda = .reset :: [] ∧ (hashDone [.reset]).busy = true := by
  decide

/-- One state that is final and one that is not. -/
theorem witness_FinalExactlyWhenEnded :
    Invariant (idleWith [0x41#8, 0xE9#8] []) ∧ Ended (idleWith [0x41#8, 0xE9#8] []) ∧ Invariant (hashDone []) ∧
    ¬ Ended (hashDone []) :=
  ⟨idle_invariant [], ⟨rfl, rfl⟩, hash_invariant [], fun h => absurd h.2 (by decide)⟩

end Sys2Proof.Tests
end

/-! PROOFS. The block's state (spec/10_state.md): who writes which register and buffer, the paths of the phase, the reset
state, and what the host's register accesses do. Every "who writes what" rests on one frame per kind of move: a
micro-step, a command word, a line of the host. -/

namespace Sys2Proof

/-- A word with the three fields of a command is its encoding. -/
theorem eq_encode_of_fields {w : Word} {i : Instr} (hz : zeroField w = 0) (hs : srcField w = i.src)
    (ho : opcField w = i.opc) : w = encode i := by
  cases i <;> exact word_ext_fields (hz.trans (by decide)) (hs.trans (by decide)) (ho.trans (by decide))

/-- A legal word is the encoding of the command it decodes to (R52). -/
theorem eq_encode_of_decode {w : Word} {i : Instr} (h : decode w = .ok i) : w = encode i := by
  unfold decode at h
  split at h
  · cases h
  · rename_i hz
    have hz : zeroField w = 0 := not_not.1 hz
    split at h
    · split at h
      · cases h
        exact eq_encode_of_fields hz ‹_› ‹_›
      · cases h
    · split at h
      · split at h
        · cases h
          exact eq_encode_of_fields hz ‹_› ‹_›
        · rename_i hs
          cases h
          exact eq_encode_of_fields hz ((srcField_eq_zero_or_one w).resolve_left hs) ‹_›
      · cases h

end Sys2Proof

namespace Sys2Proof.Machine

/-! ### Two states with the same block -/

theorem SameBlock.len {s t : State} (h : SameBlock s t) : t.len = s.len := congrArg (·.len) h
theorem SameBlock.cap {s t : State} (h : SameBlock s t) : t.cap = s.cap := congrArg (·.cap) h
theorem SameBlock.rsel {s t : State} (h : SameBlock s t) : t.rsel = s.rsel := congrArg (·.rsel) h
theorem SameBlock.rlen {s t : State} (h : SameBlock s t) : t.rlen = s.rlen := congrArg (·.rlen) h
theorem SameBlock.hash {s t : State} (h : SameBlock s t) : t.hash = s.hash := congrArg (·.hash) h
theorem SameBlock.ph {s t : State} (h : SameBlock s t) : t.ph = s.ph := congrArg (·.ph) h
theorem SameBlock.iCur {s t : State} (h : SameBlock s t) : t.iCur = s.iCur := congrArg (·.iCur) h

theorem SameBlock.byteAt {s t : State} (h : SameBlock s t) (b : Buf) (j : Nat) : t.byteAt b j = s.byteAt b j :=
  congrArg (fun u => u.byteAt b j) h

theorem SameBlock.sameOperands {s t : State} (h : SameBlock s t) : SameOperands s t :=
  ⟨h.len, h.cap, h.byteAt .ibuf⟩

theorem SameBlock.sameFrom {s t : State} (h : SameBlock s t) (b : Buf) (n : Nat) : SameFrom b n s t :=
  fun j _ => h.byteAt b j

theorem turnState_sameBlock (s : State) : SameBlock s s.turnState := by
  unfold State.turnState
  split <;> rfl

theorem popped_sameBlock (s : State) : SameBlock s s.popped := rfl

@[simp] theorem turnState_len (s : State) : s.turnState.len = s.len := (turnState_sameBlock s).len
@[simp] theorem turnState_rsel (s : State) : s.turnState.rsel = s.rsel := (turnState_sameBlock s).rsel
@[simp] theorem turnState_rlen (s : State) : s.turnState.rlen = s.rlen := (turnState_sameBlock s).rlen
@[simp] theorem turnState_hash (s : State) : s.turnState.hash = s.hash := (turnState_sameBlock s).hash
@[simp] theorem turnState_ph (s : State) : s.turnState.ph = s.ph := (turnState_sameBlock s).ph
@[simp] theorem turnState_iCur (s : State) : s.turnState.iCur = s.iCur := (turnState_sameBlock s).iCur

theorem SameOperands.trans {s t u : State} (h : SameOperands s t) (h' : SameOperands t u) : SameOperands s u :=
  ⟨h'.1.trans h.1, h'.2.1.trans h.2.1, fun j => (h'.2.2 j).trans (h.2.2 j)⟩

theorem SameFrom.trans {b : Buf} {n : Nat} {s t u : State} (h : SameFrom b n s t) (h' : SameFrom b n t u) :
    SameFrom b n s u :=
  fun j hj => (h' j hj).trans (h j hj)

/-! ### The frame of a micro-step -/

/-- No micro-step touches `IBUF`, `LEN`, `CAP`, `ERR`, the agenda or what the host has received. -/
theorem UnitMove.frame {s t : State} (h : UnitMove s t) :
    t = { s with obuf := t.obuf, busy := t.busy, rsel := t.rsel, rlen := t.rlen, hash := t.hash, ph := t.ph,
                 iCur := t.iCur, oCur := t.oCur, hs := t.hs, draws := t.draws } := by
  cases h <;> rfl

theorem UnitMove.len {s t : State} (h : UnitMove s t) : t.len = s.len := congrArg (·.len) h.frame

theorem UnitMove.sameOperands {s t : State} (h : UnitMove s t) : SameOperands s t :=
  ⟨h.len, congrArg (·.cap) h.frame,
    byteAt_ibuf_congr (congrArg (·.ibuf) h.frame) (congrArg (·.epoch) h.frame)⟩

/-- A micro-step outside `ENC_COPY` and `ENC_XLAT` leaves `OBUF` as it is. -/
theorem UnitMove.obuf_eq {s t : State} (h : UnitMove s t) (hc : s.ph ≠ .encCopy) (hx : s.ph ≠ .encXlat) :
    t.obuf = s.obuf := by
  cases h with
  | copyByte hp => exact absurd hp hc
  | xlatAscii hp => exact absurd hp hx
  | xlatHigh hp => exact absurd hp hx
  | _ => rfl

theorem UnitMove.sameFrom_obuf {s t : State} (h : UnitMove s t) (hc : s.ph ≠ .encCopy) (hx : s.ph ≠ .encXlat)
    (n : Nat) : SameFrom .obuf n s t :=
  fun j _ => byteAt_obuf_congr (h.obuf_eq hc hx) (congrArg (·.epoch) h.frame) j

/-- A micro-step outside `HSH_RUN` leaves `HASH` as it is. -/
theorem UnitMove.hash_eq {s t : State} (h : UnitMove s t) (hr : s.ph ≠ .hshRun) : t.hash = s.hash := by
  cases h with
  | hashPair hp => exact absurd hp hr
  | hashSingle hp => exact absurd hp hr
  | _ => rfl

/-- A micro-step leaves `RSEL` and `RLEN` as they are, or is the completion step of `ENC`. -/
theorem UnitMove.result_cases {s t : State} (h : UnitMove s t) :
    (t.rsel = s.rsel ∧ t.rlen = s.rlen) ∨
    ((s.ph = .encScan ∨ s.ph = .encXlat) ∧ s.iCur = s.len ∧ t.ph = .idle ∧ t.busy = false) := by
  cases h with
  | scanDone hp hi => exact .inr ⟨.inl hp, hi, rfl, rfl⟩
  | xlatDone hp hi => exact .inr ⟨.inr hp, hi, rfl, rfl⟩
  | _ => exact .inl ⟨rfl, rfl⟩

/-! ### The frame of a command word -/

/-- No command word touches a buffer, `LEN`, `CAP`, `RSEL`, `RLEN` or the model's own fields. -/
theorem CommandMove.frame {w : Word} {s t : State} (h : CommandMove w s t) :
    t = { s with busy := t.busy, err := t.err, hash := t.hash, ph := t.ph, iCur := t.iCur, oCur := t.oCur,
                 hs := t.hs } := by
  cases h <;> rfl

theorem CommandMove.byteAt {w : Word} {s t : State} (h : CommandMove w s t) (b : Buf) (j : Nat) :
    t.byteAt b j = s.byteAt b j :=
  congrArg (fun u => u.byteAt b j) h.frame

theorem CommandMove.sameOperands {w : Word} {s t : State} (h : CommandMove w s t) : SameOperands s t :=
  ⟨congrArg (·.len) h.frame, congrArg (·.cap) h.frame, h.byteAt .ibuf⟩

/-- A command word that changes `HASH` is that of a hash command, accepted. -/
theorem CommandMove.hash_cases {w : Word} {s t : State} (h : CommandMove w s t) :
    t.hash = s.hash ∨ (s.busy = false ∧ ∃ b : Buf, decode w = .ok b.hashInstr) := by
  cases h with
  | hashAccepted hb b hd => exact .inr ⟨hb, b, hd⟩
  | _ => exact .inl rfl

theorem CommandMove.eq_of_busy {w : Word} {s t : State} (h : CommandMove w s t) (hb : s.busy = true) : t = s := by
  cases h with
  | dropped => rfl
  | refused hf => simp [hb] at hf
  | encAccepted hf => simp [hb] at hf
  | hashAccepted hf => simp [hb] at hf

/-- A command word keeps the phase, or starts one of the two units of an idle block. -/
theorem CommandMove.ph_cases {w : Word} {s t : State} (h : CommandMove w s t) :
    t.ph = s.ph ∨ (s.busy = false ∧ (t.ph = .encScan ∨ t.ph = .hshRun)) := by
  cases h with
  | encAccepted hb => exact .inr ⟨hb, .inl rfl⟩
  | hashAccepted hb => exact .inr ⟨hb, .inr rfl⟩
  | _ => exact .inl rfl

/-- The words of the hash commands (R52). -/
theorem hash_word_of_decode {w : Word} {b : Buf} (h : decode w = .ok b.hashInstr) :
    w = 0x00000002#32 ∨ w = 0x00000102#32 := by
  rw [eq_encode_of_decode h]
  cases b <;> decide

/-! ### The frame of a line of the host -/

/-- A line of the host that is no command touches the operands and the buffers only. -/
theorem HostWrite.frame {s u : State} (h : HostWrite s u) :
    u = { s with ibuf := u.ibuf, obuf := u.obuf, len := u.len, cap := u.cap } := by
  cases h with
  | byte hb b => cases b <;> rfl
  | _ => rfl

theorem HostWrite.rsel {s u : State} (h : HostWrite s u) : u.rsel = s.rsel := congrArg (·.rsel) h.frame
theorem HostWrite.rlen {s u : State} (h : HostWrite s u) : u.rlen = s.rlen := congrArg (·.rlen) h.frame
theorem HostWrite.hash {s u : State} (h : HostWrite s u) : u.hash = s.hash := congrArg (·.hash) h.frame
theorem HostWrite.ph {s u : State} (h : HostWrite s u) : u.ph = s.ph := congrArg (·.ph) h.frame

theorem HostWrite.eq_or_idle {s u : State} (h : HostWrite s u) : u = s ∨ s.busy = false := by
  cases h with
  | none => exact .inl rfl
  | len hb => exact .inr hb
  | cap hb => exact .inr hb
  | byte hb => exact .inr hb

theorem HostWrite.eq_of_busy {s u : State} (h : HostWrite s u) (hb : s.busy = true) : u = s :=
  h.eq_or_idle.resolve_right (by simp [hb])

/-! ### Who writes what -/

/-- Settles O23: of the four kinds of step, only a micro-step in `HSH_RUN` and an accepted hash command leave another
`HASH` than they found, beside the reset event. -/
theorem onlyHasherWritesHash : Obligations.OnlyHasherWritesHash := by
  intro s t hstep hne
  cases step_move hstep with
  | unit hu h =>
    refine .inr (.inr ⟨hu, by_contra fun hp => hne ?_⟩)
    simpa using (unitStep_move h).hash_eq (by simpa using hp)
  | reset hr => exact .inl hr
  | command w hu hr hw h =>
    obtain ⟨hb, b, hd⟩ := (commandWrite_move h).hash_cases.resolve_left hne
    rw [hw]
    exact .inr (.inl ⟨hb, (hash_word_of_decode hd).imp (congrArg some) (congrArg some)⟩)
  | host hu hr hw u hh h => exact absurd (h.hash.trans hh.hash) hne

/-- Settles O24: command words and lines of the host have `RSEL` and `RLEN` in their frames, and so has every micro-step
but the two completion steps of `ENC`. -/
theorem onlyEncCompletionWritesResult : Obligations.OnlyEncCompletionWritesResult := by
  intro s t hstep hne
  have changed : ¬ (t.rsel = s.rsel ∧ t.rlen = s.rlen) := fun h => hne.elim (· h.1) (· h.2)
  cases step_move hstep with
  | unit hu h =>
    have hm := (unitStep_move h).result_cases
    simp only [turnState_rsel, turnState_rlen, turnState_ph, turnState_iCur, turnState_len] at hm
    exact .inr ⟨hu, hm.resolve_left changed⟩
  | reset hr => exact .inl hr
  | command w hu hr hw h =>
    have hf := (commandWrite_move h).frame
    exact absurd ⟨congrArg (·.rsel) hf, congrArg (·.rlen) hf⟩ changed
  | host hu hr hw u hh h => exact absurd ⟨h.rsel.trans hh.rsel, h.rlen.trans hh.rlen⟩ changed

/-- Settles O25: micro-steps and command words have the operands in their frames, and a line of the host leaves the block
as it is unless the block is idle. -/
theorem onlyHostWritesOperands : Obligations.OnlyHostWritesOperands := by
  intro s t hstep hne
  cases step_move hstep with
  | unit hu h => exact absurd ((turnState_sameBlock s).sameOperands.trans (unitStep_move h).sameOperands) hne
  | reset hr => exact .inl hr
  | command w hu hr hw h =>
    exact absurd ((popped_sameBlock s).sameOperands.trans (commandWrite_move h).sameOperands) hne
  | host hu hr hw u hh h =>
    refine .inr ⟨hh.eq_or_idle.resolve_left ?_, hu, hw⟩
    rintro rfl
    exact hne h.sameOperands

/-- Settles O26: `OBUF` is in the frame of every command word, of every micro-step outside the slow path, and of a line of
the host unless the block is idle. -/
theorem onlySlowPathOrHostWritesObuf : Obligations.OnlySlowPathOrHostWritesObuf := by
  intro s t hstep hne
  cases step_move hstep with
  | unit hu h =>
    refine .inr (.inr ⟨hu, by_contra fun hp => hne ?_⟩)
    obtain ⟨hc, hx⟩ := not_or.1 hp
    exact ((turnState_sameBlock s).sameFrom .obuf 0).trans
      ((unitStep_move h).sameFrom_obuf (by simpa using hc) (by simpa using hx) 0)
  | reset hr => exact .inl hr
  | command w hu hr hw h => exact absurd (fun j _ => (commandWrite_move h).byteAt .obuf j) hne
  | host hu hr hw u hh h =>
    refine .inr (.inl ⟨hh.eq_or_idle.resolve_left ?_, hu, hw⟩)
    rintro rfl
    exact hne (h.sameFrom .obuf 0)

/-! ### The phase and the cursor -/

/-- The seven edges of the three paths of `PH` (R20). -/
def phaseEdges : List (Phase × Phase) :=
  [(.idle, .encScan), (.encScan, .idle), (.encScan, .encCopy), (.encCopy, .encXlat), (.encXlat, .idle),
    (.idle, .hshRun), (.hshRun, .idle)]

/-- The cursor `I` moves forward by at most 2 and stays at or below `LEN` (R20). -/
def CursorAdvances (s t : State) : Prop :=
  s.iCur.toNat ≤ t.iCur.toNat ∧ t.iCur.toNat ≤ s.iCur.toNat + 2 ∧ t.iCur.toNat ≤ t.len.toNat

theorem UnitMove.ph_edge {s t : State} (h : UnitMove s t) : t.ph = s.ph ∨ (s.ph, t.ph) ∈ phaseEdges := by
  cases h with
  | scanDone hp => exact .inr (by simp [phaseEdges, hp])
  | scanHigh hp => exact .inr (by simp [phaseEdges, hp])
  | copyDone hp => exact .inr (by simp [phaseEdges, hp])
  | xlatDone hp => exact .inr (by simp [phaseEdges, hp])
  | hashDone hp => exact .inr (by simp [phaseEdges, hp])
  | _ => exact .inl rfl

theorem cursorAdvances_of_eq {s t : State} (hi : t.iCur = s.iCur) (hl : t.len = s.len)
    (hle : s.iCur.toNat ≤ s.len.toNat) : CursorAdvances s t := by
  simp only [CursorAdvances, hi, hl]
  omega

theorem cursorAdvances_of_succ {s t : State} (hi : t.iCur = s.iCur + 1) (hl : t.len = s.len)
    (hle : s.iCur.toNat ≤ s.len.toNat) (hne : s.iCur ≠ s.len) : CursorAdvances s t := by
  simp only [CursorAdvances, hi, hl]
  bv_omega

theorem cursorAdvances_of_pair {s t : State} (hi : t.iCur = s.iCur + 2) (hl : t.len = s.len)
    (hlt : s.iCur.toNat + 1 < s.len.toNat) : CursorAdvances s t := by
  simp only [CursorAdvances, hi, hl]
  bv_omega

/-- Every micro-step but a completion step advances the cursor within `LEN`. -/
theorem UnitMove.cursorAdvances {s t : State} (h : UnitMove s t) (hle : s.iCur.toNat ≤ s.len.toNat)
    (hp : t.ph ≠ .idle) : CursorAdvances s t := by
  cases h with
  | scanDone => exact absurd rfl hp
  | xlatDone => exact absurd rfl hp
  | hashDone => exact absurd rfl hp
  | scanAscii _ hi => exact cursorAdvances_of_succ rfl rfl hle hi
  | xlatAscii _ hi => exact cursorAdvances_of_succ rfl rfl hle hi
  | xlatHigh _ hi => exact cursorAdvances_of_succ rfl rfl hle hi
  | hashSingle _ hi => exact cursorAdvances_of_succ rfl rfl hle hi
  | hashPair _ _ hn => exact cursorAdvances_of_pair rfl rfl hn
  | idle => exact cursorAdvances_of_eq rfl rfl hle
  | scanHigh => exact cursorAdvances_of_eq rfl rfl hle
  | copyByte => exact cursorAdvances_of_eq rfl rfl hle
  | copyDone => exact cursorAdvances_of_eq rfl rfl hle

/-- While a unit runs its cursor is at or below `LEN` (R71, R92). -/
theorem PhaseInv.iCur_le {s : State} (h : PhaseInv s) (hp : s.ph ≠ .idle) : s.iCur.toNat ≤ s.len.toNat := by
  unfold PhaseInv at h
  split at h
  · exact absurd ‹_› hp
  · exact h.i_le
  · exact h.i_lt.le
  · exact h.i_le
  · exact h.i_le

theorem Invariant.ph_idle {s : State} (h : Invariant s) (hb : s.busy = false) : s.ph = .idle :=
  by_contra fun hp => by simp [h.busy_iff.2 hp] at hb

/-- Settles O21: a micro-step takes an edge of its own path, an accepted command the first edge of its path; what lands on
a busy block otherwise leaves phase, cursor and `LEN` alone. -/
theorem phasePaths : Obligations.PhasePaths := by
  intro s t hinv hr hstep
  have ile := hinv.phase.iCur_le
  cases step_move hstep with
  | unit hu h =>
    have hm := unitStep_move h
    refine ⟨turnState_ph s ▸ hm.ph_edge, fun hs ht => ?_⟩
    simpa [CursorAdvances] using hm.cursorAdvances (by simpa using ile hs) ht
  | reset hr' => simp [hr] at hr'
  | command w hu hr hw h =>
    have hm := commandWrite_move h
    constructor
    · rcases hm.ph_cases with hp | ⟨hb, hp⟩
      · exact .inl hp
      · have hi : s.ph = .idle := hinv.ph_idle hb
        rcases hp with hp | hp <;> exact .inr (by rw [hi, hp]; decide)
    · intro hs _
      rw [hm.eq_of_busy (hinv.busy_iff.2 hs)]
      exact cursorAdvances_of_eq rfl rfl (ile hs)
  | host hu hr hw u hh h =>
    refine ⟨.inl (h.ph.trans hh.ph), fun hs _ => ?_⟩
    obtain rfl := hh.eq_of_busy (hinv.busy_iff.2 hs)
    exact cursorAdvances_of_eq h.iCur h.len (ile hs)

/-! ### A step at a command word -/

theorem step_of_agenda_cons {s : State} {e : Event} {rest : List Event} (h : s.agenda = e :: rest) :
    step s = runEvent e { s with agenda := rest } := by
  simp [step, nextTransition, h]

/-- A word that decodes runs its command: while busy both are dropped. -/
theorem commandWrite_of_decode {w : Word} {i : Instr} (h : decode w = .ok i) (s : State) :
    commandWrite w s = exec i s := by
  cases hb : s.busy
  · simp [commandWrite, unlessBusy_of_idle _ hb, h]
  · rw [commandWrite, unlessBusy_of_busy _ hb, exec_of_busy i hb]

/-- The three ways a word is presented to `CMD` are one: the write of the word. -/
theorem step_of_presentedWord {s : State} {w : Word} (h : s.presentedWord = some w) :
    step s = commandWrite w s.popped := by
  unfold State.presentedWord at h
  split at h
  · rename_i ha
    cases h
    rw [step_of_agenda_cons ha, State.popped, ha]
    rfl
  · rename_i ha
    cases h
    rw [step_of_agenda_cons ha, State.popped, ha]
    rfl
  · rename_i ha
    split at h
    · rename_i hret
      cases h
      rw [step_of_agenda_cons ha, State.popped, ha]
      simp [runEvent, runHashFromRead, hret]
    · cases h
  · cases h

theorem step_withCommandWord (w : Word) (s : State) : step (withCommandWord w s) = commandWrite w s :=
  step_of_presentedWord rfl

/-- A table word that decodes is placed as a command word that decodes alike. -/
theorem withFetchWord_of_decode {nbits w : Nat} {i : Instr} (h : decodeTableWord nbits w = some i) (s : State) :
    ∃ v, s.withFetchWord nbits w = withCommandWord v s ∧ decode v = .ok i := by
  unfold decodeTableWord at h
  split at h
  · cases h
  · rename_i v hv
    split at h
    · rename_i hd
      cases h
      exact ⟨v, by simp [State.withFetchWord, hv], hd⟩
    · cases h

/-- Settles O6: however the word is presented, the step is the write of the word, which runs what the word decodes to. -/
theorem stepRunsDecodedCommand : Obligations.StepRunsDecodedCommand := by
  refine ⟨fun s w i hw hd => ?_, fun s nbits w i h => ?_⟩
  · rw [step_of_presentedWord hw, commandWrite_of_decode hd]
  · obtain ⟨v, hv, hd⟩ := withFetchWord_of_decode h s
    rw [hv, step_withCommandWord, commandWrite_of_decode hd]

/-! ### The capacity -/

/-- With a capacity of 510 or more `ENC` makes only its length check. -/
theorem execEnc_of_byteCap_le {s : State} (h : Config.byteCap ≤ s.cap.toNat) :
    execEnc s = unlessBusy s (withLength Config.charCap s (.next { acceptCommand .encScan s with oCur := 0 })) := by
  unfold execEnc
  rcases Nat.lt_or_ge Config.charCap s.len.toNat with hl | hl
  · rw [withLength_of_gt _ hl, withLength_of_gt _ hl]
  · have hc : 2 * s.len.toNat ≤ s.cap.toNat := (Nat.mul_le_mul_left 2 hl).trans h
    rw [withCapacity_of_le _ hc]

/-- Settles O15: above 510 the capacity check passes whenever the length check does, so that `CAP` is only carried along. -/
theorem capAboveByteCapIsByteCap : Obligations.CapAboveByteCapIsByteCap := by
  intro s c hc
  have lhs := execEnc_of_byteCap_le (s := { s with cap := c }) hc
  have rhs := execEnc_of_byteCap_le (s := { s with cap := 510#10 }) (le_refl 510)
  simp only [exec, lhs, rhs]
  cases s.busy
  · rcases Nat.lt_or_ge Config.charCap s.len.toNat with hl | hl
    · simp [unlessBusy_of_idle, withLength_of_gt, hl, raiseErr]
    · simp [unlessBusy_of_idle, withLength_of_le, hl, acceptCommand]
  · simp [unlessBusy_of_busy]

/-! ### The reset state -/

theorem reset_invariant : Invariant State.reset where
  ibuf_wf := ⟨.nil, by simp [State.reset]⟩
  obuf_wf := ⟨.nil, by simp [State.reset]⟩
  busy_iff := by decide
  hash_lt := by decide
  rlen_le := by decide
  phase := trivial

/-- Settles O29: no byte is listed in a buffer, no unit runs, and the registers have the values of R25. -/
theorem resetMeetsInvariant : Obligations.ResetMeetsInvariant :=
  ⟨reset_invariant, rfl, rfl, rfl, rfl, rfl, rfl, rfl, rfl⟩

/-! ### The status word -/

theorem statusWord_toNat (s : State) :
    (statusWord s).toNat = (if s.busy then 1 else 0) + 2 ^ 4 * s.err.code.toNat := by
  unfold statusWord
  cases s.busy <;> cases s.err <;> rfl

theorem statusBusy_statusWord (s : State) : statusBusy (statusWord s) = s.busy := by
  unfold statusBusy statusWord
  cases s.busy <;> cases s.err <;> rfl

/-- Settles O53: the word's number, the four codes, and bit 0, which is `BUSY` and so says by the invariant whether a unit
runs. -/
theorem statusWordFields : Obligations.StatusWordFields :=
  ⟨statusWord_toNat, ⟨rfl, rfl, rfl, rfl⟩, fun s h => by rw [statusBusy_statusWord, h.busy_iff]⟩

/-! ### Register writes -/

theorem step_regWrite {s : State} {r : Reg} {v : Word} {rest : List Event} (hr : r ≠ .cmd)
    (h : s.agenda = Script.wr r v :: rest) : step s = .next (hostRegWrite r v { s with agenda := rest }) := by
  rw [step_of_agenda_cons h]
  cases r with
  | cmd => exact absurd rfl hr
  | _ => rfl

/-- Bits 9:0 of a word, as a number. -/
theorem extractLsb'_zero_ten (v : Word) : v.extractLsb' 0 10 = BitVec.ofNat 10 (v.toNat % 1024) := by
  apply BitVec.eq_of_toNat_eq
  simp

/-- Settles O54: the write reaches `hostRegWrite`, which stores bits 9:0 or does nothing. -/
theorem registerWrites : Obligations.RegisterWrites := by
  intro s v rest
  refine ⟨fun hb h => ?_, fun hb h => ?_, fun r hr h => ?_⟩
  · rw [step_regWrite (by decide) h, ← extractLsb'_zero_ten]
    simp [hostRegWrite, hb]
  · rw [step_regWrite (by decide) h, ← extractLsb'_zero_ten]
    simp [hostRegWrite, hb]
  · rcases hr with rfl | rfl | rfl | rfl <;> exact step_regWrite (by decide) h

/-! ### Reads -/

theorem step_regRead {s : State} {r : Reg} {rest : List Event} (h : s.agenda = Script.rd r :: rest) :
    step s = .next (hostRegRead r { s with agenda := rest }) :=
  step_of_agenda_cons h

theorem step_bufRead {s : State} {b : Buf} {i : Nat} {rest : List Event} (hi : i < b.size)
    (h : s.agenda = Script.rb b i :: rest) : step s = .next (hostBufRead b i { s with agenda := rest }) := by
  rw [step_of_agenda_cons h]
  simp [Script.rb, runEvent, runMove, Move.wf, hi]

theorem hostRegRead_of_value {s : State} {r : Reg} {v : Word} (h : regValue s r = some v) :
    hostRegRead r s = s.receive (.word v) := by
  simp [hostRegRead, h]

theorem hostBufRead_of_idle {s : State} (hb : s.busy = false) (b : Buf) (i : Nat) :
    hostBufRead b i s = s.receive (.byte (s.byteAt b i)) := by
  simp [hostBufRead, bufValue, hb]

/-- Every register read hands the host one word, fixed or free. -/
theorem hostRegRead_returned (r : Reg) (s : State) : ∃ w, (hostRegRead r s).returned = .word w :: s.returned := by
  unfold hostRegRead
  split <;> exact ⟨_, rfl⟩

/-- Every buffer read hands the host one byte, fixed or free. -/
theorem hostBufRead_returned (b : Buf) (i : Nat) (s : State) :
    ∃ v, (hostBufRead b i s).returned = .byte v :: s.returned := by
  unfold hostBufRead
  split <;> exact ⟨_, rfl⟩

/-- A word with the number of a count is the count, zero-extended. -/
theorem setWidth_eq_of_toNat_eq {x : Count} {v : Word} (h : v.toNat = x.toNat) : x.setWidth 32 = v := by
  apply BitVec.eq_of_toNat_eq
  rw [BitVec.toNat_setWidth_of_le (by decide), h]

/-- The bit of `RSEL`, zero-extended, is 0 for unchanged and 1 for converted (R17). -/
theorem rsel_setWidth_eq {x : ResultSel} {v : Word} (h : v.toNat = if x = .converted then 1 else 0) :
    x.bit.setWidth 32 = v := by
  apply BitVec.eq_of_toNat_eq
  rw [h]
  cases x <;> rfl

/-- Settles O56: each listed read finds its value fixed by `regValue` or `bufValue`, and a read with a fixed value only
hands that value to the host. -/
theorem definedReads : Obligations.DefinedReads := by
  intro s rest
  refine ⟨fun r v h hv => ?_, fun b i hi hb h => ?_⟩
  · have value : regValue { s with agenda := rest } r = some v := by
      rcases hv with ⟨rfl, rfl⟩ | ⟨rfl, rfl⟩ | ⟨rfl, hv⟩ | ⟨rfl, hv⟩ | ⟨hb, ⟨rfl, hv⟩ | ⟨rfl, hv⟩ | ⟨rfl, rfl⟩⟩
      · rfl
      · rfl
      · exact congrArg some (setWidth_eq_of_toNat_eq hv)
      · exact congrArg some (setWidth_eq_of_toNat_eq hv)
      · simp [regValue, hb, rsel_setWidth_eq hv]
      · simp [regValue, hb, setWidth_eq_of_toNat_eq hv]
      · simp [regValue, hb]
    rw [step_regRead h, hostRegRead_of_value value]
    rfl
  · exact (step_bufRead hi h).trans (congrArg _ (hostBufRead_of_idle (s := { s with agenda := rest }) hb b i))

/-- Settles O57: a read answers a next state that differs in what the host has issued and received only, busy or idle. -/
theorem busyReadsReturnSomeValue : Obligations.BusyReadsReturnSomeValue := by
  intro s rest _
  refine ⟨fun r _ h => ?_, fun b i hi h => ?_⟩
  · obtain ⟨w, hw⟩ := hostRegRead_returned r { s with agenda := rest }
    exact ⟨_, w, step_regRead h, (hostRegRead_sameBlock r _).of_agenda, hostRegRead_agenda r _, hw⟩
  · obtain ⟨v, hv⟩ := hostBufRead_returned b i { s with agenda := rest }
    exact ⟨_, v, step_bufRead hi h, (hostBufRead_sameBlock b i _).of_agenda, hostBufRead_agenda b i _, hv⟩

end Sys2Proof.Machine

/-! PROOFS. The buffers and the window (spec/20_memory.md): which bytes a unit may write, which it may read, what a
buffer write and the script line `load` leave, and the map of the window. -/

namespace Sys2Proof.Machine

/-! ### The bounds of the cursors -/

/-- A cursor at or below `LEN` that is not at `LEN` is below it. -/
theorem count_lt_of_le_of_ne {x y : Count} (h : x.toNat ≤ y.toNat) (hne : x ≠ y) : x.toNat < y.toNat :=
  lt_of_le_of_ne h fun he => hne (BitVec.eq_of_toNat_eq he)

theorem Invariant.scanInv {s : State} (h : Invariant s) (hp : s.ph = .encScan) : ScanInv s := by
  simpa only [PhaseInv, hp] using h.phase

theorem Invariant.copyInv {s : State} (h : Invariant s) (hp : s.ph = .encCopy) : CopyInv s := by
  simpa only [PhaseInv, hp] using h.phase

theorem Invariant.xlatInv {s : State} (h : Invariant s) (hp : s.ph = .encXlat) : XlatInv s := by
  simpa only [PhaseInv, hp] using h.phase

theorem Invariant.hashInv {s : State} (h : Invariant s) (hp : s.ph = .hshRun) : HashInv s := by
  simpa only [PhaseInv, hp] using h.phase

/-- The doubling bound of an accepted `ENC` fits `OBUF` (R71). -/
theorem EncAccepted.two_len_le {s : State} (h : EncAccepted s) : 2 * s.len.toNat ≤ 510 :=
  Nat.mul_le_mul_left 2 h.len_le

theorem CopyInv.oCur_lt {s : State} (h : CopyInv s) (ho : s.oCur < s.iCur) : s.oCur.toNat < s.len.toNat :=
  ((BitVec.lt_def).1 ho).trans h.i_lt

/-- Before `LEN` there is room in `OBUF` for the two bytes of the next translation (R71). -/
theorem XlatInv.oCur_succ_lt {s : State} (h : XlatInv s) (hi : s.iCur ≠ s.len) :
    s.oCur.toNat + 1 < 2 * s.len.toNat := by
  have high : highCount (s.bytes .ibuf s.iCur.toNat) ≤ s.iCur.toNat := by
    simpa using highCount_le_length (s.bytes .ibuf s.iCur.toNat)
  have lt := count_lt_of_le_of_ne h.i_le hi
  have ho := h.o_eq
  omega

/-! ### The unit's turn -/

/-- When the turn is the unit's, the step is its micro-step (R147). -/
theorem step_of_unitTurn {s : State} (h : s.unitTurn = true) : step s = unitStep s.turnState := by
  unfold State.unitTurn at h
  split at h
  · rename_i ha
    simp [step, nextTransition, State.turnState, ha]
  · rename_i rest ha
    simp [step_of_agenda_cons ha, runEvent, State.turnState, ha]
  · rename_i rest ha
    have ht : s.turnState = s := by simp [State.turnState, ha]
    have hs : { s with agenda := .wait :: rest } = s := by rw [← ha]
    rw [step_of_agenda_cons ha, ht]
    simp only [runEvent, runWait, if_pos h, hs]
  · cases h

theorem unitStep_of_encScan {s : State} (h : s.ph = .encScan) : unitStep s = encScanStep s := by simp [unitStep, h]

theorem unitStep_of_encCopy {s : State} (h : s.ph = .encCopy) : unitStep s = encCopyStep s := by simp [unitStep, h]

theorem unitStep_of_encXlat {s : State} (h : s.ph = .encXlat) : unitStep s = encXlatStep s := by simp [unitStep, h]

theorem unitStep_of_hshRun {s : State} (h : s.ph = .hshRun) : unitStep s = hashRunStep s := by simp [unitStep, h]

/-! ### What a unit writes -/

theorem SameBlock.oCur {s t : State} (h : SameBlock s t) : t.oCur = s.oCur := congrArg (·.oCur) h

@[simp] theorem turnState_oCur (s : State) : s.turnState.oCur = s.oCur := (turnState_sameBlock s).oCur

/-- A byte that a micro-step changes is at `O`, or at `O + 1` when two are written, in one of the two phases that
write. -/
theorem UnitMove.changed_byte {s t : State} (h : UnitMove s t) {b : Buf} {j : Nat}
    (hne : t.byteAt b j ≠ s.byteAt b j) :
    b = .obuf ∧ ((s.ph = .encCopy ∧ s.oCur < s.iCur ∧ j = s.oCur.toNat) ∨
      (s.ph = .encXlat ∧ s.iCur ≠ s.len ∧ j ≤ s.oCur.toNat + 1)) := by
  cases b with
  | ibuf =>
    obtain ⟨-, -, hibuf⟩ := h.sameOperands
    exact absurd (hibuf j) hne
  | obuf =>
    refine ⟨rfl, ?_⟩
    cases h with
    | copyByte hp hi =>
      exact .inl ⟨hp, hi, by_contra fun hj => hne (byteAt_setByte_of_ne s _ (.inr hj))⟩
    | xlatAscii hp hi =>
      exact .inr ⟨hp, hi, by_contra fun hj => hne (byteAt_setByte_of_ne s _ (.inr (by omega)))⟩
    | xlatHigh hp hi =>
      refine .inr ⟨hp, hi, by_contra fun hj => hne ?_⟩
      exact (byteAt_setByte_of_ne _ _ (.inr (by omega))).trans (byteAt_setByte_of_ne s _ (.inr (by omega)))
    | _ => exact absurd rfl hne

/-- Settles O27: a micro-step writes at `O` and `O + 1`, which R71 keeps below `2 * LEN`, and `2 * LEN` has been checked
against `CAP` at the acceptance. -/
theorem unitsWriteWithinCap : Obligations.UnitsWriteWithinCap := by
  intro s t hinv hu hstep b j hne
  have hmove := unitStep_move (step_of_unitTurn hu ▸ hstep)
  rw [← (turnState_sameBlock s).byteAt] at hne
  have hbyte := hmove.changed_byte hne
  simp only [turnState_ph, turnState_oCur, turnState_iCur, turnState_len] at hbyte
  obtain ⟨hb, ⟨hp, ho, hj⟩ | ⟨hp, hi, hj⟩⟩ := hbyte
  · have inv := hinv.copyInv hp
    have lt := inv.oCur_lt ho
    exact ⟨hb, by omega, inv.cap_ge, inv.two_len_le⟩
  · have inv := hinv.xlatInv hp
    have lt := inv.oCur_succ_lt hi
    exact ⟨hb, by omega, inv.cap_ge, inv.two_len_le⟩

/-! ### What a unit reads -/

/-- `s` with other contents in its two buffers. -/
def State.withBuffers (s : State) (mi mo : Memory) : State := { s with ibuf := mi, obuf := mo }

/-- `t'` and `t` have the same registers, and a byte in which they differ is in each what it was in the state, `s'` or
`s`, that the step began in. -/
structure WroteAlike (s s' t t' : State) : Prop where
  registers : { t' with ibuf := t.ibuf, obuf := t.obuf } = t
  bytes : ∀ b j, t'.byteAt b j = t.byteAt b j ∨ (t'.byteAt b j = s'.byteAt b j ∧ t.byteAt b j = s.byteAt b j)

/-- Two answers, to a step from `s` and to one from `s'`, are next states that were written alike. -/
def AnswersAlike (s s' : State) (r r' : Result) : Prop :=
  ∃ t t', r = .next t ∧ r' = .next t' ∧ WroteAlike s s' t t'

theorem WroteAlike.setByte {s s' t t' : State} (h : WroteAlike s s' t t') (b : Buf) (i : Nat) (v : Byte) :
    WroteAlike s s' (t.setByte b i v) (t'.setByte b i v) where
  registers := by
    have hr := h.registers
    cases b
    · exact congrArg (fun u => { u with ibuf := t.ibuf.store i v }) hr
    · exact congrArg (fun u => { u with obuf := t.obuf.store i v }) hr
  bytes := by
    intro b' j
    by_cases hj : b' = b ∧ j = i
    · obtain ⟨rfl, rfl⟩ := hj
      exact .inl (by rw [byteAt_setByte_self, byteAt_setByte_self])
    · have hj : b' ≠ b ∨ j ≠ i := not_and_or.1 hj
      rw [byteAt_setByte_of_ne t' v hj, byteAt_setByte_of_ne t v hj]
      exact h.bytes b' j

theorem AnswersAlike.next {s s' t t' : State} (h : WroteAlike s s' t t') : AnswersAlike s s' (.next t) (.next t') :=
  ⟨t, t', rfl, rfl, h⟩

/-- Registers updated alike, and no byte touched. -/
theorem AnswersAlike.untouched {s s' t t' : State} (hr : { t' with ibuf := t.ibuf, obuf := t.obuf } = t)
    (hb : ∀ b j, t'.byteAt b j = s'.byteAt b j ∧ t.byteAt b j = s.byteAt b j) :
    AnswersAlike s s' (.next t) (.next t') :=
  .next ⟨hr, fun b j => .inr (hb b j)⟩

/-- A test that comes out alike. -/
theorem AnswersAlike.ite {s s' : State} {c : Prop} [Decidable c] {a a' e e' : Result}
    (ht : c → AnswersAlike s s' a a') (hf : ¬ c → AnswersAlike s s' e e') :
    AnswersAlike s s' (if c then a else e) (if c then a' else e') := by
  split
  · exact ht ‹_›
  · exact hf ‹_›

/-- A read within the buffer of a byte that agrees. -/
theorem AnswersAlike.read {s s' u u' : State} {b : Buf} {i : Nat} {k k' : Byte → Result} (hi : i < b.size)
    (he : u'.byteAt b i = u.byteAt b i) (hk : AnswersAlike s s' (k (u.byteAt b i)) (k' (u.byteAt b i))) :
    AnswersAlike s s' (unitRead u b i k) (unitRead u' b i k') := by
  rwa [unitRead_of_lt k hi, unitRead_of_lt k' hi, he]

/-- A write of one byte within the buffer, and what follows it. -/
theorem AnswersAlike.write {s s' u u' : State} {b : Buf} {i : Nat} {v : Byte} {k k' : State → Result}
    (hi : i < b.size) (hk : AnswersAlike s s' (k (u.setByte b i v)) (k' (u'.setByte b i v))) :
    AnswersAlike s s' ((unitWrite u b i v).andThen k) ((unitWrite u' b i v).andThen k') := by
  rwa [unitWrite_of_lt v hi, unitWrite_of_lt v hi]

section
variable {s : State} {mi mo : Memory}

theorem wroteAlike_self : WroteAlike s (s.withBuffers mi mo) s (s.withBuffers mi mo) :=
  ⟨rfl, fun _ _ => .inr ⟨rfl, rfl⟩⟩

theorem encScanStep_alike (h : ScanInv s)
    (he : ∀ j, j < s.len.toNat → (s.withBuffers mi mo).byteAt .ibuf j = s.byteAt .ibuf j) :
    AnswersAlike s (s.withBuffers mi mo) (encScanStep s) (encScanStep (s.withBuffers mi mo)) := by
  refine .ite (fun _ => .untouched rfl fun _ _ => ⟨rfl, rfl⟩) fun hi => ?_
  have lt := count_lt_of_le_of_ne h.i_le hi
  refine .read (lt.trans_le h.len_le) (he _ lt) ?_
  exact .ite (fun _ => .untouched rfl fun _ _ => ⟨rfl, rfl⟩) fun _ => .untouched rfl fun _ _ => ⟨rfl, rfl⟩

theorem encCopyStep_alike (h : CopyInv s)
    (he : ∀ j, j < s.len.toNat → (s.withBuffers mi mo).byteAt .ibuf j = s.byteAt .ibuf j) :
    AnswersAlike s (s.withBuffers mi mo) (encCopyStep s) (encCopyStep (s.withBuffers mi mo)) := by
  refine .ite (fun ho => ?_) fun _ => .untouched rfl fun _ _ => ⟨rfl, rfl⟩
  have lt := h.oCur_lt ho
  have room : s.oCur.toNat < Buf.obuf.size :=
    (lt.trans_le (Nat.le_mul_of_pos_left _ two_pos)).trans_le h.two_len_le
  refine .read (lt.trans_le h.len_le) (he _ lt) (.write room (.next ⟨rfl, ?_⟩))
  exact (wroteAlike_self.setByte ..).bytes

theorem encXlatStep_alike (h : XlatInv s)
    (he : ∀ j, j < s.len.toNat → (s.withBuffers mi mo).byteAt .ibuf j = s.byteAt .ibuf j) :
    AnswersAlike s (s.withBuffers mi mo) (encXlatStep s) (encXlatStep (s.withBuffers mi mo)) := by
  refine .ite (fun _ => .untouched rfl fun _ _ => ⟨rfl, rfl⟩) fun hi => ?_
  have lt := count_lt_of_le_of_ne h.i_le hi
  have room : s.oCur.toNat + 1 < Buf.obuf.size := (h.oCur_succ_lt hi).trans_le h.two_len_le
  refine .read (lt.trans_le h.len_le) (he _ lt) (.ite (fun _ => ?_) fun _ => ?_)
  · exact .write (Nat.lt_of_succ_lt room) (.next ⟨rfl, (wroteAlike_self.setByte ..).bytes⟩)
  · refine .write (Nat.lt_of_succ_lt room) (.write room (.next ⟨rfl, ?_⟩))
    exact ((wroteAlike_self.setByte ..).setByte ..).bytes

theorem hashRunStep_alike (h : HashInv s)
    (he : ∀ j, j < s.len.toNat → (s.withBuffers mi mo).byteAt s.hs j = s.byteAt s.hs j) :
    AnswersAlike s (s.withBuffers mi mo) (hashRunStep s) (hashRunStep (s.withBuffers mi mo)) := by
  refine .ite (fun _ => .untouched rfl fun _ _ => ⟨rfl, rfl⟩) fun hi => ?_
  have lt := count_lt_of_le_of_ne h.i_le hi
  refine .read (lt.trans_le h.len_le) (he _ lt) (.ite (fun hn => ?_) fun _ => .untouched rfl fun _ _ => ⟨rfl, rfl⟩)
  refine .read (hn.1.trans_le h.len_le) (he _ hn.1) ?_
  exact .ite (fun _ => .untouched rfl fun _ _ => ⟨rfl, rfl⟩) fun _ => .untouched rfl fun _ _ => ⟨rfl, rfl⟩

end

/-- Settles O28: phase by phase the two steps make the same tests, read bytes that agree and write the same bytes. -/
theorem unitsReadOnlyBelowLen : Obligations.UnitsReadOnlyBelowLen := by
  rintro s _ mi mo hinv hp rfl henc hhsh
  suffices h : AnswersAlike s (s.withBuffers mi mo) (unitStep s) (unitStep (s.withBuffers mi mo)) by
    obtain ⟨t, t', ht, ht', alike⟩ := h
    exact ⟨t, t', ht, ht', alike.registers, alike.bytes⟩
  cases ph : s.ph with
  | idle => exact absurd ph hp
  | encScan =>
    rw [unitStep_of_encScan ph, unitStep_of_encScan (s := s.withBuffers mi mo) ph]
    exact encScanStep_alike (hinv.scanInv ph) (henc (by rw [ph]; rfl))
  | encCopy =>
    rw [unitStep_of_encCopy ph, unitStep_of_encCopy (s := s.withBuffers mi mo) ph]
    exact encCopyStep_alike (hinv.copyInv ph) (henc (by rw [ph]; rfl))
  | encXlat =>
    rw [unitStep_of_encXlat ph, unitStep_of_encXlat (s := s.withBuffers mi mo) ph]
    exact encXlatStep_alike (hinv.xlatInv ph) (henc (by rw [ph]; rfl))
  | hshRun =>
    rw [unitStep_of_hshRun ph, unitStep_of_hshRun (s := s.withBuffers mi mo) ph]
    exact hashRunStep_alike (hinv.hashInv ph) (hhsh ph)

/-! ### What the host writes to a buffer -/

/-- The bytes `x` have been written to the buffer `b` from index `i`, and nothing else of the block. -/
structure Stored (b : Buf) (i : Nat) (x : List Byte) (s t : State) : Prop where
  written : t.slice b i x.length = x
  others : ∀ b' j, b' ≠ b ∨ j < i ∨ i + x.length ≤ j → t.byteAt b' j = s.byteAt b' j
  registers : { t with ibuf := s.ibuf, obuf := s.obuf, agenda := s.agenda } = s

theorem Stored.nil (b : Buf) (i : Nat) (s : State) : Stored b i [] s s := ⟨rfl, fun _ _ _ => rfl, rfl⟩

theorem Stored.busy {b : Buf} {i : Nat} {x : List Byte} {s t : State} (h : Stored b i x s t) : t.busy = s.busy :=
  congrArg (·.busy) h.registers

theorem stored_setByte (b : Buf) (i : Nat) (v : Byte) (s : State) (a : List Event) :
    Stored b i [v] s (State.setByte { s with agenda := a } b i v) where
  written := congrArg (· :: []) (byteAt_setByte_self _ b i v)
  others b' j hj := byteAt_setByte_of_ne { s with agenda := a } v
    (hj.imp_right fun hj => by rw [List.length_singleton] at hj; omega)
  registers := by cases b <;> rfl

/-- Bytes stored one after the other. -/
theorem Stored.cons {b : Buf} {i : Nat} {v : Byte} {x : List Byte} {s t u : State} (hv : Stored b i [v] s u)
    (hx : Stored b (i + 1) x u t) : Stored b i (v :: x) s t where
  written := by
    have hd : t.byteAt b i = v :=
      (hx.others b i (.inr (.inl (Nat.lt_succ_self i)))).trans (List.cons.inj hv.written).1
    rw [List.length_cons, slice_succ, hd, hx.written]
  others b' j hj := by
    rw [List.length_cons] at hj
    refine (hx.others b' j (hj.imp_right ?_)).trans (hv.others b' j (hj.imp_right ?_))
    · omega
    · rw [List.length_singleton]; omega
  registers := by
    have hr := congrArg (fun w : State => { w with ibuf := s.ibuf, obuf := s.obuf, agenda := s.agenda }) hx.registers
    exact hr.trans hv.registers

theorem step_bufWrite {s : State} {b : Buf} {i : Nat} {v : Byte} {rest : List Event} (hi : i < b.size)
    (h : s.agenda = Script.wb b i v :: rest) : step s = .next (hostBufWrite b i v { s with agenda := rest }) := by
  rw [step_of_agenda_cons h]
  simp [Script.wb, runEvent, runMove, Move.wf, hi]

theorem step_bufWrite_of_busy {s : State} {b : Buf} {i : Nat} {v : Byte} {rest : List Event} (hi : i < b.size)
    (h : s.agenda = Script.wb b i v :: rest) (hb : s.busy = true) : step s = .next { s with agenda := rest } := by
  rw [step_bufWrite hi h, hostBufWrite, if_pos hb]

theorem step_bufWrite_of_idle {s : State} {b : Buf} {i : Nat} {v : Byte} {rest : List Event} (hi : i < b.size)
    (h : s.agenda = Script.wb b i v :: rest) (hb : s.busy = false) :
    step s = .next (State.setByte { s with agenda := rest } b i v) := by
  rw [step_bufWrite hi h, hostBufWrite, if_neg (by simp [hb])]

/-- The byte writes of `load` store the bytes, one a step (R59). -/
theorem runsTo_wbs {b : Buf} {x : List Byte} {rest : List Event} :
    ∀ {i : Nat} {s : State}, s.busy = false → i + x.length ≤ b.size → s.agenda = Script.wbs b i x ++ rest →
      ∃ t, RunsTo x.length s t ∧ t.agenda = rest ∧ Stored b i x s t := by
  induction x with
  | nil => exact fun {i s} _ _ ha => ⟨s, rfl, ha, .nil b i s⟩
  | cons v x ih =>
    intro i s hb hle ha
    rw [List.length_cons] at hle
    have hs := step_bufWrite_of_idle (by omega) ha hb
    have hv := stored_setByte b i v s (Script.wbs b (i + 1) x ++ rest)
    obtain ⟨t, hr, hta, hx⟩ := ih (hv.busy.trans hb) (by omega) (setByte_agenda ..)
    exact ⟨t, runsTo_succ hs hr, hta, hv.cons hx⟩

theorem size_lt_count (b : Buf) : b.size < 1024 := by cases b <;> decide

/-- The number of bytes of a buffer, written to `LEN`, is not cut. -/
theorem count_of_length {b : Buf} {n : Nat} (h : n ≤ b.size) :
    (BitVec.ofNat 10 ((BitVec.ofNat 32 n).toNat % 1024)).toNat = n := by
  have := size_lt_count b
  simp only [BitVec.toNat_ofNat]
  omega

/-- Settles O55: one buffer write stores one byte; `load` is such writes, one a step, and then the write of `LEN`. -/
theorem bufferWrites : Obligations.BufferWrites := by
  refine ⟨fun s b i v rest hi ha => ⟨step_bufWrite_of_busy hi ha, fun hb => ?_⟩, fun s b x rest hb hle ha => ?_⟩
  · have hv := stored_setByte b i v s rest
    exact ⟨_, step_bufWrite_of_idle hi ha hb, byteAt_setByte_self _ b i v,
      fun b' j hj => byteAt_setByte_of_ne _ v hj, hv.registers⟩
  · rw [Script.load, List.append_assoc] at ha
    obtain ⟨u, hr, hua, hx⟩ := runsTo_wbs hb (by omega) ha
    have hlen := (registerWrites u _ rest).1 (hx.busy.trans hb) hua
    refine ⟨_, runsTo_add hr ⟨_, hlen, rfl⟩, rfl, hx.written, count_of_length hle, fun b' j hj => ?_, ?_⟩
    · exact hx.others b' j (hj.imp_right fun hj => .inr (by omega))
    · exact congrArg (fun w : State => { w with len := s.len }) hx.registers

/-! ### The window -/

/-- Which access stands for which move (R33). -/
theorem toMove_iff (a : Access) (m : Move) : a.toMove = some m ↔
    (∃ r, a = .load32 r.offset ∧ m = .regRead r) ∨
    (∃ r v, a = .store32 r.offset v ∧ m = .regWrite r v) ∨
    (∃ b i, i < b.size ∧ a = .load8 (b.offset + i) ∧ m = .bufRead b i) ∨
    (∃ b i v, i < b.size ∧ a = .store8 (b.offset + i) v ∧ m = .bufWrite b i v) := by
  cases a with
  | load16 | store16 => simp [Access.toMove]
  | load32 off => simp [Access.toMove, regAt_iff, @eq_comm _ m]
  | store32 off v => simp [Access.toMove, regAt_iff, @eq_comm _ m]
  | load8 off => simp [Access.toMove, bufAt_iff, @eq_comm _ m, and_assoc]
  | store8 off v => simp [Access.toMove, bufAt_iff, @eq_comm _ m, and_assoc]

/-- A move that only reads. -/
def Move.isRead : Move → Bool
  | .regRead _ => true
  | .regWrite _ _ => false
  | .bufRead _ _ => true
  | .bufWrite _ _ _ => false

theorem runMove_sameBlock_of_isRead {m : Move} {s t : State} (hm : m.isRead = true) (h : runMove m s = .next t) :
    SameBlock s t := by
  unfold runMove at h
  split at h
  · cases m with
    | regRead r =>
      cases h
      exact hostRegRead_sameBlock r s
    | bufRead b i =>
      cases h
      exact hostBufRead_sameBlock b i s
    | regWrite => cases hm
    | bufWrite => cases hm
  · cases h

/-- A load stands for a read or for no move. -/
theorem toMove_isRead {a : Access} {m : Move} {off : Nat} (ha : a = .load8 off ∨ a = .load16 off ∨ a = .load32 off)
    (h : a.toMove = some m) : m.isRead = true := by
  rcases (toMove_iff a m).1 h with ⟨r, -, rfl⟩ | ⟨r, v, rfl, rfl⟩ | ⟨b, i, -, -, rfl⟩ | ⟨b, i, v, -, rfl, rfl⟩
  · rfl
  · simp at ha
  · rfl
  · simp at ha

theorem runAccess_of_toMove {a : Access} {m : Move} (h : a.toMove = some m) (s : State) :
    runAccess a s = runMove m s := by
  simp [runAccess, h]

theorem runAccess_of_none {a : Access} (h : a.toMove = none) (s : State) :
    runAccess a s = .refused (.reservedAccess a) := by
  simp [runAccess, h]

/-- Settles O58: the map is `toMove`; an access with a move is run as that move, and one without is refused. -/
theorem windowMap : Obligations.WindowMap := by
  refine ⟨by decide, toMove_iff, fun s a rest ha => ?_⟩
  have hs : step s = runAccess a { s with agenda := rest } := step_of_agenda_cons ha
  refine ⟨fun m hm => ?_, fun hm => ?_, fun off t hload hstep => ?_⟩
  · exact hs.trans (runAccess_of_toMove hm _)
  · exact hs.trans (runAccess_of_none hm _)
  · rw [hs] at hstep
    cases hm : a.toMove with
    | none => simp [runAccess_of_none hm] at hstep
    | some m =>
      rw [runAccess_of_toMove hm] at hstep
      exact (runMove_sameBlock_of_isRead (toMove_isRead hload hm) hstep).of_agenda

end Sys2Proof.Machine

/-! PROOFS. The command word (spec/30_encoding.md): decoding and encoding are inverse to each other, which gives the legal
words and the opcode map by mask and match; which words are illegal; and what a command leaves unchanged. -/

namespace Sys2Proof

/-! ### The fields as numbers -/

/-- Settles O1: a field is a slice of the word's bits; above bit 9 nothing is cut off, as a word is below `2 ^ 32`. -/
theorem commandWordFields : Obligations.CommandWordFields := by
  intro w
  simp only [opcField, srcField, zeroField, BitVec.extractLsb'_toNat, Nat.shiftRight_eq_div_pow, pow_zero, Nat.div_one,
    pow_one, true_and]
  exact Nat.mod_eq_of_lt (Nat.div_lt_of_lt_mul w.isLt)

/-! ### Decoding and encoding -/

theorem decode_encode (i : Instr) : decode (encode i) = .ok i := by cases i <;> decide

/-- A word decodes to the one command whose encoding it is (R53). -/
theorem decode_eq_ok_iff (w : Word) (i : Instr) : decode w = .ok i ↔ w = encode i :=
  ⟨eq_encode_of_decode, fun h => h ▸ decode_encode i⟩

theorem encode_eq_matchWord : ∀ i : Instr, encode i = i.matchWord
  | .enc => Laws.EncodesToTableWord.enc.2.1
  | .hashI => Laws.EncodesToTableWord.hashI.2.1
  | .hashO => Laws.EncodesToTableWord.hashO.2.1

theorem exists_instr {p : Instr → Prop} : (∃ i, p i) ↔ p .enc ∨ p .hashI ∨ p .hashO where
  mp := by rintro ⟨_ | _ | _, h⟩ <;> simp [h]
  mpr := by rintro (h | h | h) <;> exact ⟨_, h⟩

/-- Settles O3: `encode` is a two-sided inverse of `decode` on the legal words, and its three values are the match words. -/
theorem decodeIffEncoded : Obligations.DecodeIffEncoded := by
  refine ⟨decode_eq_ok_iff, fun w => ?_⟩
  simp only [exists_instr, decode_eq_ok_iff, encode_eq_matchWord, Instr.matchWord]
  rfl

/-! ### Mask and match -/

theorem maskWord_eq_allOnes (i : Instr) : i.maskWord = BitVec.allOnes 32 := by cases i <;> rfl

/-- What a word decodes to, by its fields (R52). -/
theorem decode_eq_ok_iff_fields (w : Word) (i : Instr) :
    decode w = .ok i ↔ zeroField w = 0 ∧ srcField w = i.src ∧ opcField w = i.opc where
  mp h := by
    rw [(decode_eq_ok_iff w i).1 h]
    cases i <;> decide
  mpr := fun ⟨hz, hs, ho⟩ => (decode_eq_ok_iff w i).2 (eq_encode_of_fields hz hs ho)

theorem word_eq_iff_fields {v w : Word} :
    v = w ↔ zeroField v = zeroField w ∧ srcField v = srcField w ∧ opcField v = opcField w :=
  ⟨fun h => h ▸ ⟨rfl, rfl, rfl⟩, fun ⟨hz, hs, ho⟩ => word_ext_fields hz hs ho⟩

theorem zeroField_and (v w : Word) : zeroField (v &&& w) = zeroField v &&& zeroField w := BitVec.extractLsb'_and
theorem srcField_and (v w : Word) : srcField (v &&& w) = srcField v &&& srcField w := BitVec.extractLsb'_and
theorem opcField_and (v w : Word) : opcField (v &&& w) = opcField v &&& opcField w := BitVec.extractLsb'_and

/-- The mask of the two hash commands together keeps `ZERO` and `OPC` and drops `SRC`. -/
theorem and_hashMask_eq_iff (w : Word) :
    w &&& 0xFFFFFEFF#32 = 0x00000002#32 ↔ zeroField w = 0 ∧ opcField w = 0x02 := by
  have mz : zeroField 0xFFFFFEFF#32 = BitVec.allOnes 23 := by decide
  have ms : srcField 0xFFFFFEFF#32 = 0#1 := by decide
  have mo : opcField 0xFFFFFEFF#32 = BitVec.allOnes 8 := by decide
  rw [word_eq_iff_fields, zeroField_and, srcField_and, opcField_and, mz, ms, mo, BitVec.and_allOnes, BitVec.and_zero,
    BitVec.and_allOnes]
  exact and_congr_right' (and_iff_right (by decide))

/-- Settles O2: every single mask keeps the whole word, and the joint mask keeps all but `SRC`, which tells the two hash
commands apart. -/
theorem wordSelectsByMaskAndMatch : Obligations.WordSelectsByMaskAndMatch := by
  refine ⟨fun w i => ?_, fun w => ?_, fun i => ?_⟩
  · rw [maskWord_eq_allOnes, BitVec.and_allOnes, ← encode_eq_matchWord, decode_eq_ok_iff]
  · rw [and_hashMask_eq_iff, decode_eq_ok_iff_fields, decode_eq_ok_iff_fields]
    rcases srcField_eq_zero_or_one w with hs | hs <;> simp [hs, Instr.src, Instr.opc]
  · cases i <;> decide

/-! ### Fields and illegal words -/

/-- R54, by the decoder's tests: `ZERO`, then `OPC`, then `SRC`. -/
theorem decode_eq_error_iff (w : Word) :
    (∃ e, decode w = .error e) ↔
      opcField w = 0x00 ∨ 0x03 ≤ (opcField w).toNat ∨ (opcField w = 0x01 ∧ srcField w = 1) ∨ zeroField w ≠ 0 := by
  by_cases hz : zeroField w = 0#23
  · by_cases h1 : opcField w = 1#8
    · rcases srcField_eq_zero_or_one w with hs | hs <;> simp [decode, hz, h1, hs]
    · by_cases h2 : opcField w = 2#8
      · rcases srcField_eq_zero_or_one w with hs | hs <;> simp [decode, hz, h2, hs]
      · have hopc : opcField w = 0x00 ∨ 0x03 ≤ (opcField w).toNat := by bv_omega
        simpa [decode, hz, h1, h2] using hopc
  · simp [decode, hz]

end Sys2Proof

namespace Sys2Proof.Machine

/-- An illegal word written while idle raises `ILLEGAL_COMMAND` (R123). -/
theorem commandWrite_of_illegal {w : Word} {e : IllegalWord} (h : decode w = .error e) {s : State}
    (hb : s.busy = false) : commandWrite w s = .next (raiseErr .illegalCommand s) := by
  simp [commandWrite, unlessBusy_of_idle _ hb, h]

/-- Settles O4: the step at a presented word is the write of the word, which for an illegal word is error entry. -/
theorem illegalWordsByField : Obligations.IllegalWordsByField := by
  refine fun w => ⟨decode_eq_error_iff w, fun ⟨e, he⟩ s hb hw => ?_⟩
  exact (step_of_presentedWord hw).trans (commandWrite_of_illegal he hb)

/-! ### What a command leaves unchanged -/

/-- A command is the command word that is its encoding. -/
theorem exec_move {i : Instr} {s t : State} (h : exec i s = .next t) : CommandMove (encode i) s t :=
  commandWrite_move (commandWrite_of_decode (decode_encode i) s ▸ h)

/-- A word that decodes to `ENC` leaves `HASH` and `HS` as they are. -/
theorem CommandMove.hash_hs_eq {w : Word} {s t : State} (h : CommandMove w s t) (hd : decode w = .ok .enc) :
    t.hash = s.hash ∧ t.hs = s.hs := by
  cases h with
  | hashAccepted _ b hb => cases b <;> simp [Buf.hashInstr, hd] at hb
  | _ => exact ⟨rfl, rfl⟩

/-- A word that does not decode to `ENC` leaves `O` as it is. -/
theorem CommandMove.oCur_eq {w : Word} {s t : State} (h : CommandMove w s t) (hd : decode w ≠ .ok .enc) :
    t.oCur = s.oCur := by
  cases h with
  | encAccepted _ he => exact absurd he hd
  | _ => rfl

/-- Error entry changes `ERR` only (R125); a word dropped while busy changes nothing (R130). -/
theorem CommandMove.eq_of_err {w : Word} {s t : State} (h : CommandMove w s t) (he : t.err ≠ .ok) :
    t = { s with err := t.err } := by
  cases h with
  | dropped => rfl
  | refused => rfl
  | encAccepted => exact absurd rfl he
  | hashAccepted => exact absurd rfl he

/-- Settles O9: a command is dropped, refused or accepted as a command word is, and each clause is read off that. -/
theorem commandFrame : Obligations.CommandFrame := by
  intro i s t h
  have hm := exec_move h
  have hf := hm.frame
  refine ⟨hm.byteAt, congrArg (·.len) hf, congrArg (·.cap) hf, congrArg (·.rsel) hf, congrArg (·.rlen) hf,
    congrArg (·.agenda) hf, congrArg (·.returned) hf, congrArg (·.draws) hf, ?_, ?_, hm.eq_of_err, hm.eq_of_busy⟩
  · rintro rfl
    exact hm.hash_hs_eq (decode_encode .enc)
  · rintro (rfl | rfl) <;> exact hm.oCur_eq (by decide)

end Sys2Proof.Machine

/-! PROOFS. The encoder (spec/40_encoder.md): the step counts, the acceptance of `ENC`, the micro-steps of its three
phases, whole runs; and the invariant of the machine, which every kind of step keeps. -/

namespace Sys2Proof.Machine

/-! ### The step counts -/

theorem encSteps_of_all_isAscii {x : List Byte} (h : x.all isAscii = true) : encSteps x = x.length + 1 := by
  simp [encSteps, h]

theorem encSteps_of_not_all_isAscii {x : List Byte} (h : x.all isAscii = false) :
    encSteps x = x.length + firstHigh x + 3 := by
  simp [encSteps, h]

theorem firstHigh_lt_length {x : List Byte} (h : x.all isAscii = false) : firstHigh x < x.length :=
  List.findIdx_lt_length.2 (by simpa using h)

/-- The first byte at or above 0x80 comes right after the bytes below it. -/
theorem firstHigh_append_cons {x y : List Byte} {b : Byte} (hx : x.all isAscii = true) (hb : isAscii b = false) :
    firstHigh (x ++ b :: y) = x.length := by
  have notFound : x.findIdx (fun b => !isAscii b) = x.length := List.findIdx_eq_length.2 (by simpa using hx)
  simp [firstHigh, List.findIdx_append, List.findIdx_cons, notFound, hb]

/-- A unit takes one or two bytes of the sequence. -/
theorem length_units_bounds (x : List Byte) :
    (x.length + 1) / 2 ≤ (units x).length ∧ (units x).length ≤ x.length := by
  fun_induction units x with
  | case1 => simp
  | case2 v => simp
  | case3 v next rest h ih => simp only [List.length_cons]; omega
  | case4 v next rest h ih => simp only [List.length_cons] at *; omega

/-- Settles O52: the first byte at or above 0x80 lies below the length, and a unit takes one or two bytes. -/
theorem stepCountBounds : Obligations.StepCountBounds := by
  intro x
  have enc : x.length + 1 ≤ encSteps x ∧ encSteps x ≤ 2 * x.length + 2 := by
    cases h : x.all isAscii
    · have first := firstHigh_lt_length h
      rw [encSteps_of_not_all_isAscii h]
      omega
    · rw [encSteps_of_all_isAscii h]
      omega
  obtain ⟨low, high⟩ := length_units_bounds x
  exact ⟨enc.1, enc.2, Nat.succ_le_succ low, Nat.succ_le_succ high⟩

/-! ### Acceptance -/

/-- Settles O7: an idle `ENC` makes the two checks in the order of R65; the step at its word runs it. -/
theorem encAcceptance : Obligations.EncAcceptance := by
  refine ⟨fun s hb => (unlessBusy_of_idle _ hb).trans ?_, fun s _ hw => ?_⟩
  · rcases Nat.lt_or_ge Config.charCap s.len.toNat with hl | hl
    · exact (withLength_of_gt _ hl).trans (if_pos hl).symm
    · refine (withLength_of_le _ hl).trans (.trans ?_ (if_neg (Nat.not_lt.2 hl)).symm)
      rcases Nat.lt_or_ge s.cap.toNat (2 * s.len.toNat) with hc | hc
      · exact (withCapacity_of_gt _ hc).trans (if_pos hc).symm
      · exact (withCapacity_of_le _ hc).trans (if_neg (Nat.not_lt.2 hc)).symm
  · exact (step_of_presentedWord hw).trans (commandWrite_of_decode (decode_encode .enc) s.popped)

/-! ### The micro-steps of the encoder -/

theorem encScanStep_of_done {s : State} (hi : s.iCur = s.len) :
    encScanStep s = .next { completeCommand s with rsel := .unchanged, rlen := s.len } := if_pos hi

theorem encScanStep_of_lt {s : State} (lt : s.iCur.toNat < s.len.toNat) (hl : s.len.toNat ≤ Config.charCap) :
    encScanStep s =
      if isAscii (s.byteAt .ibuf s.iCur.toNat) then .next { s with iCur := s.iCur + 1 }
      else .next { s with ph := .encCopy } := by
  rw [encScanStep, if_neg fun h => lt.ne (congrArg _ h), unitRead_of_lt (b := .ibuf) _ (lt.trans_le hl)]

theorem encCopyStep_of_done {s : State} (ho : s.iCur.toNat ≤ s.oCur.toNat) :
    encCopyStep s = .next { s with ph := .encXlat } := if_neg (BitVec.not_lt.2 ho)

theorem encCopyStep_of_lt {s : State} (ho : s.oCur.toNat < s.iCur.toNat) (hi : s.iCur.toNat ≤ Config.charCap) :
    encCopyStep s =
      .next { s.setByte .obuf s.oCur.toNat (s.byteAt .ibuf s.oCur.toNat) with oCur := s.oCur + 1 } := by
  have lt : s.oCur.toNat < Config.charCap := ho.trans_le hi
  rw [encCopyStep, if_pos (BitVec.lt_def.2 ho), unitRead_of_lt (b := .ibuf) _ lt,
    unitWrite_of_lt _ (lt.trans (by decide : Config.charCap < Buf.obuf.size)), andThen_next]

theorem encXlatStep_of_done {s : State} (hi : s.iCur = s.len) :
    encXlatStep s = .next { completeCommand s with rsel := .converted, rlen := s.oCur } := if_pos hi

theorem encXlatStep_of_lt {s : State} (lt : s.iCur.toNat < s.len.toNat) (hl : s.len.toNat ≤ Config.charCap)
    (ho : s.oCur.toNat + 1 < Config.byteCap) :
    encXlatStep s =
      if isAscii (s.byteAt .ibuf s.iCur.toNat) then
        .next { s.setByte .obuf s.oCur.toNat (s.byteAt .ibuf s.iCur.toNat) with
          oCur := s.oCur + 1, iCur := s.iCur + 1 }
      else
        .next { (s.setByte .obuf s.oCur.toNat (leadOf (s.byteAt .ibuf s.iCur.toNat))).setByte .obuf (s.oCur.toNat + 1)
            (trailOf (s.byteAt .ibuf s.iCur.toNat)) with
          oCur := s.oCur + 2, iCur := s.iCur + 1 } := by
  rw [encXlatStep, if_neg fun h => lt.ne (congrArg _ h), unitRead_of_lt (b := .ibuf) _ (lt.trans_le hl),
    unitWrite_of_lt (b := .obuf) _ (Nat.lt_of_succ_lt ho), unitWrite_of_lt (b := .obuf) _ (Nat.lt_of_succ_lt ho)]
  simp only [andThen_next, unitWrite_of_lt (b := .obuf) _ ho]

/-- Settles O17: the scan at `LEN` completes and elsewhere tests one byte. -/
theorem scanStep : Obligations.ScanStep := by
  intro s hp hle hl
  rw [unitStep_of_encScan hp]
  refine ⟨fun hi => ⟨_, encScanStep_of_done hi, rfl⟩, fun hi => ?_⟩
  exact (encScanStep_of_lt (count_lt_of_le_of_ne hle hi) hl).trans (if_congr (isAscii_iff _) rfl rfl)

/-- The first bytes of a buffer pass the scan when each of them is below 0x80. -/
theorem all_isAscii_bytes_iff {s : State} {b : Buf} {n : Nat} :
    (s.bytes b n).all isAscii = true ↔ ∀ j, j < n → s.byteAt b j < 0x80#8 := by
  induction n with
  | zero => simp [State.bytes]
  | succ n ih =>
    simp only [bytes_succ, List.all_append, Bool.and_eq_true, ih, List.all_cons, List.all_nil, and_true,
      isAscii_iff, Nat.forall_lt_succ_right]

/-- The cursor stands at the first byte at or above 0x80. -/
theorem CopyInv.first_high {s : State} (h : CopyInv s) :
    s.iCur.toNat < s.len.toNat ∧ 0x80#8 ≤ s.byteAt .ibuf s.iCur.toNat ∧
      ∀ j, j < s.iCur.toNat → s.byteAt .ibuf j < 0x80#8 :=
  ⟨h.i_lt, (isAscii_eq_false_iff _).1 h.high, all_isAscii_bytes_iff.1 h.scanned⟩

/-- R71 on the way from the scan to the copy. -/
theorem ScanInv.enter_copy {s : State} (h : ScanInv s) (hi : s.iCur ≠ s.len)
    (hb : isAscii (s.byteAt .ibuf s.iCur.toNat) = false) : CopyInv { s with ph := .encCopy } where
  toEncAccepted := ⟨h.err_ok, h.len_le, h.cap_ge⟩
  i_lt := count_lt_of_le_of_ne h.i_le hi
  high := hb
  scanned := h.scanned
  o_le := by simp [h.o_zero]
  copied := by simp [h.o_zero, State.bytes]

/-- Settles O18: the copy moves one byte below `I` or is over, and the scan enters it at the first byte at or above 0x80,
with `O` still 0. -/
theorem copyStep : Obligations.CopyStep := by
  refine ⟨fun s hp hi hl => ?_, fun s t hinv hp hstep ht => ?_⟩
  · rw [unitStep_of_encCopy hp]
    rcases Nat.lt_or_ge s.oCur.toNat s.iCur.toNat with ho | ho
    · rw [if_pos ho, encCopyStep_of_lt ho (hi.trans hl)]
    · rw [if_neg (Nat.not_lt.2 ho), encCopyStep_of_done ho]
  · have inv := hinv.scanInv hp
    cases unitStep_move hstep with
    | scanHigh _ hi _ hb => exact ⟨inv.o_zero, (inv.enter_copy hi hb).first_high⟩
    | scanDone => cases ht
    | scanAscii => simp [hp] at ht
    | _ hp' => simp [hp] at hp'

/-- Settles O19: the translation at `LEN` completes and elsewhere emits one byte or two, for which R71's bound on `O` leaves
room; the copy enters it with `I` where the scan left it. -/
theorem xlatStep : Obligations.XlatStep := by
  refine ⟨fun s hp hle hl ho => ?_, fun s t hinv hp hstep ht => ?_⟩
  · rw [unitStep_of_encXlat hp]
    refine ⟨fun hi => ⟨_, encXlatStep_of_done hi, rfl⟩, fun hi => ?_⟩
    have lt := count_lt_of_le_of_ne hle hi
    have room : s.oCur.toNat + 1 < 510 := by omega
    exact (encXlatStep_of_lt lt hl room).trans (if_congr (isAscii_iff _) rfl rfl)
  · have inv := hinv.copyInv hp
    cases unitStep_move hstep with
    | copyDone => exact inv.first_high
    | copyByte => simp [hp] at ht
    | _ hp' => simp [hp] at hp'

/-! ### The invariant through the encoder's micro-steps -/

section
variable {s t : State}

theorem PhaseInv.scanInv (h : PhaseInv s) (hp : s.ph = .encScan) : ScanInv s := by simpa only [PhaseInv, hp] using h
theorem PhaseInv.copyInv (h : PhaseInv s) (hp : s.ph = .encCopy) : CopyInv s := by simpa only [PhaseInv, hp] using h
theorem PhaseInv.xlatInv (h : PhaseInv s) (hp : s.ph = .encXlat) : XlatInv s := by simpa only [PhaseInv, hp] using h
theorem PhaseInv.hashInv (h : PhaseInv s) (hp : s.ph = .hshRun) : HashInv s := by simpa only [PhaseInv, hp] using h

theorem phaseInv_of_idle (hp : s.ph = .idle) : PhaseInv s := by simp only [PhaseInv, hp]
theorem ScanInv.phaseInv (h : ScanInv s) (hp : s.ph = .encScan) : PhaseInv s := by simpa only [PhaseInv, hp] using h
theorem CopyInv.phaseInv (h : CopyInv s) (hp : s.ph = .encCopy) : PhaseInv s := by simpa only [PhaseInv, hp] using h
theorem XlatInv.phaseInv (h : XlatInv s) (hp : s.ph = .encXlat) : PhaseInv s := by simpa only [PhaseInv, hp] using h
theorem HashInv.phaseInv (h : HashInv s) (hp : s.ph = .hshRun) : PhaseInv s := by simpa only [PhaseInv, hp] using h

/-- A cursor below a count advances without wrapping. -/
theorem toNat_add_one_of_lt {x y : Count} (h : x.toNat < y.toNat) : (x + 1).toNat = x.toNat + 1 := by bv_omega

theorem EncAccepted.unitMove (h : EncAccepted s) (hm : UnitMove s t) : EncAccepted t := by
  rw [hm.frame]
  exact ⟨h.err_ok, h.len_le, h.cap_ge⟩

/-- R71 at the acceptance. -/
theorem scanInv_accepted (hl : s.len.toNat ≤ Config.charCap) (hc : 2 * s.len.toNat ≤ s.cap.toNat) :
    ScanInv { acceptCommand .encScan s with oCur := 0 } :=
  ⟨⟨rfl, hl, hc⟩, Nat.zero_le _, rfl, rfl⟩

/-- R71 over a byte that passes the scan. -/
theorem ScanInv.advance (h : ScanInv s) (hi : s.iCur ≠ s.len)
    (hb : isAscii (s.byteAt .ibuf s.iCur.toNat) = true) : ScanInv { s with iCur := s.iCur + 1 } := by
  have lt := count_lt_of_le_of_ne h.i_le hi
  have hn := toNat_add_one_of_lt lt
  refine ⟨⟨h.err_ok, h.len_le, h.cap_ge⟩, hn.trans_le lt, h.o_zero, ?_⟩
  show (s.bytes .ibuf (s.iCur + 1).toNat).all isAscii = true
  rw [hn, bytes_succ, List.all_append, h.scanned]
  simpa using hb

/-- The bytes below an index are out of reach of a write at the index or above. -/
theorem bytes_setByte_of_le (b : Buf) {i n : Nat} (v : Byte) (h : n ≤ i) :
    (s.setByte b i v).bytes b n = s.bytes b n :=
  bytes_congr fun _ hj => byteAt_setByte_of_ne s v (.inr (hj.trans_le h).ne)

/-- A byte written at an index, right above the bytes below it. -/
theorem bytes_setByte_succ (b : Buf) (i : Nat) (v : Byte) :
    (s.setByte b i v).bytes b (i + 1) = s.bytes b i ++ [v] := by
  rw [bytes_succ, bytes_setByte_of_le b v le_rfl, byteAt_setByte_self]

/-- R71 over a byte copied. -/
theorem CopyInv.copy_byte (h : CopyInv s) (ho : s.oCur < s.iCur) :
    CopyInv { s.setByte .obuf s.oCur.toNat (s.byteAt .ibuf s.oCur.toNat) with oCur := s.oCur + 1 } := by
  have lt : s.oCur.toNat < s.iCur.toNat := BitVec.lt_def.1 ho
  have hn := toNat_add_one_of_lt lt
  refine ⟨⟨h.err_ok, h.len_le, h.cap_ge⟩, h.i_lt, h.high, h.scanned, hn.trans_le lt, ?_⟩
  show (s.setByte .obuf s.oCur.toNat (s.byteAt .ibuf s.oCur.toNat)).bytes .obuf (s.oCur + 1).toNat =
    s.bytes .ibuf (s.oCur + 1).toNat
  rw [hn, bytes_setByte_succ, h.copied, bytes_succ]

theorem highCount_of_all_isAscii {x : List Byte} (h : x.all isAscii = true) : highCount x = 0 :=
  List.countP_eq_zero.2 (by simpa using h)

theorem CopyInv.oCur_eq (h : CopyInv s) (ho : ¬ s.oCur < s.iCur) : s.oCur.toNat = s.iCur.toNat :=
  le_antisymm h.o_le (BitVec.not_lt.1 ho)

/-- R71 on the way from the copy to the translation: bytes below 0x80 are their own translation. -/
theorem CopyInv.enter_xlat (h : CopyInv s) (ho : ¬ s.oCur < s.iCur) : XlatInv { s with ph := .encXlat } where
  toEncAccepted := ⟨h.err_ok, h.len_le, h.cap_ge⟩
  i_le := h.i_lt.le
  written := by
    refine h.copied.trans ?_
    rw [h.oCur_eq ho]
    exact (xlatAll_of_all_isAscii h.scanned).symm
  o_eq := (h.oCur_eq ho).trans (congrArg (s.iCur.toNat + ·) (highCount_of_all_isAscii h.scanned)).symm
  slow := by
    show (s.bytes .ibuf s.len.toNat).all isAscii = false
    rw [bytes_eq_append_slice s .ibuf h.i_lt.le, slice_cons s .ibuf (Nat.sub_pos_of_lt h.i_lt)]
    simp [h.high]

/-- A byte more adds to a length and its count of high bytes what its translation is long. -/
theorem highCount_bytes_succ (s : State) (b : Buf) (n : Nat) :
    n + 1 + highCount (s.bytes b (n + 1)) = n + highCount (s.bytes b n) + (xlat (s.byteAt b n)).length := by
  rw [bytes_succ, highCount_append, ← xlatAll_singleton, length_xlatAll, List.length_singleton]
  omega

/-- R71 over a step that appends the translation of the byte at `I` to the bytes below `O`. -/
theorem XlatInv.emit (h : XlatInv s) (hm : UnitMove s t) (hi : s.iCur ≠ s.len) (hti : t.iCur = s.iCur + 1)
    (hto : t.oCur.toNat = s.oCur.toNat + (xlat (s.byteAt .ibuf s.iCur.toNat)).length)
    (hw : t.bytes .obuf t.oCur.toNat = s.bytes .obuf s.oCur.toNat ++ xlat (s.byteAt .ibuf s.iCur.toNat)) :
    XlatInv t := by
  have lt := count_lt_of_le_of_ne h.i_le hi
  have hn : t.iCur.toNat = s.iCur.toNat + 1 := by rw [hti, toNat_add_one_of_lt lt]
  obtain ⟨-, -, hibuf⟩ := hm.sameOperands
  have bytes : ∀ n, t.bytes .ibuf n = s.bytes .ibuf n := fun n => bytes_congr fun j _ => hibuf j
  refine ⟨h.toEncAccepted.unitMove hm, ?_, ?_, ?_, ?_⟩
  · rw [hn, hm.len]
    exact lt
  · rw [hw, h.written, hn, bytes, bytes_succ, xlatAll_append, xlatAll_singleton]
  · rw [hto, h.o_eq, hn, bytes, highCount_bytes_succ]
  · rw [State.operand, hm.len, bytes]
    exact h.slow

/-- Before `LEN` the cursor `O` has room for the two bytes of a translation, and advances without wrapping. -/
theorem XlatInv.oCur_add_two (h : XlatInv s) (hi : s.iCur ≠ s.len) : (s.oCur + 2).toNat = s.oCur.toNat + 2 := by
  have room := h.oCur_succ_lt hi
  have := h.two_len_le
  bv_omega

theorem XlatInv.oCur_add_one (h : XlatInv s) (hi : s.iCur ≠ s.len) : (s.oCur + 1).toNat = s.oCur.toNat + 1 := by
  have room := h.oCur_succ_lt hi
  have := h.two_len_le
  bv_omega

/-- A byte below 0x80 is written as it is. -/
theorem XlatInv.emit_ascii (h : XlatInv s)
    (hm : UnitMove s { s.setByte .obuf s.oCur.toNat (s.byteAt .ibuf s.iCur.toNat) with
      oCur := s.oCur + 1, iCur := s.iCur + 1 })
    (hi : s.iCur ≠ s.len) (hb : isAscii (s.byteAt .ibuf s.iCur.toNat) = true) :
    XlatInv { s.setByte .obuf s.oCur.toNat (s.byteAt .ibuf s.iCur.toNat) with
      oCur := s.oCur + 1, iCur := s.iCur + 1 } := by
  have hn := h.oCur_add_one hi
  refine h.emit hm hi rfl ?_ ?_
  · rw [xlat_of_isAscii hb]
    exact hn
  · rw [xlat_of_isAscii hb, ← bytes_setByte_succ, ← hn]
    rfl

/-- Any other byte is written as its two bytes, one above the other. -/
theorem XlatInv.emit_high (h : XlatInv s)
    (hm : UnitMove s { (s.setByte .obuf s.oCur.toNat (leadOf (s.byteAt .ibuf s.iCur.toNat))).setByte .obuf
        (s.oCur.toNat + 1) (trailOf (s.byteAt .ibuf s.iCur.toNat)) with
      oCur := s.oCur + 2, iCur := s.iCur + 1 })
    (hi : s.iCur ≠ s.len) (hb : isAscii (s.byteAt .ibuf s.iCur.toNat) = false) :
    XlatInv { (s.setByte .obuf s.oCur.toNat (leadOf (s.byteAt .ibuf s.iCur.toNat))).setByte .obuf
        (s.oCur.toNat + 1) (trailOf (s.byteAt .ibuf s.iCur.toNat)) with
      oCur := s.oCur + 2, iCur := s.iCur + 1 } := by
  have hn := h.oCur_add_two hi
  refine h.emit hm hi rfl ?_ ?_
  · rw [xlat_of_not_isAscii hb]
    exact hn
  · rw [xlat_of_not_isAscii hb, List.append_cons, ← bytes_setByte_succ, ← bytes_setByte_succ]
    exact congrArg (State.bytes _ .obuf) hn

/-! ### The invariant through the hasher's micro-steps -/

/-- The byte at `I` is a unit of its own unless it makes a pair with the next one below `LEN`. -/
theorem units_slice_single {b : Buf} {i n : Nat} (hi : i < n)
    (hn : ¬ (i + 1 < n ∧ isLead (s.byteAt b i) = true ∧ isContinuation (s.byteAt b (i + 1)) = true)) :
    units (s.slice b i (n - i)) = s.byteAt b i :: units (s.slice b (i + 1) (n - (i + 1))) := by
  rw [slice_cons s b (Nat.sub_pos_of_lt hi), Nat.sub_sub]
  rcases Nat.lt_or_ge (i + 1) n with hlt | hle
  · rw [slice_cons s b (Nat.sub_pos_of_lt hlt), units_single]
    simpa [hlt] using hn
  · rw [Nat.sub_eq_zero_of_le hle]
    rfl

theorem units_slice_pair {b : Buf} {i n : Nat} (hi : i + 1 < n) (hl : isLead (s.byteAt b i) = true)
    (hc : isContinuation (s.byteAt b (i + 1)) = true) :
    units (s.slice b i (n - i)) =
      foldPair (s.byteAt b i) (s.byteAt b (i + 1)) :: units (s.slice b (i + 2) (n - (i + 2))) := by
  rw [slice_cons s b (by omega), slice_cons s b (by omega), units_pair _ (by simp [hl, hc]), Nat.sub_sub, Nat.sub_sub]

/-- R92 over a unit of one byte. -/
theorem HashInv.mix_single (h : HashInv s) (hi : s.iCur ≠ s.len)
    (hn : ¬ (s.iCur.toNat + 1 < s.len.toNat ∧ isLead (s.byteAt s.hs s.iCur.toNat) = true ∧
      isContinuation (s.byteAt s.hs (s.iCur.toNat + 1)) = true)) :
    HashInv (mixSingle (s.byteAt s.hs s.iCur.toNat) s) := by
  have lt := count_lt_of_le_of_ne h.i_le hi
  have hs : (s.iCur + 1).toNat = s.iCur.toNat + 1 := toNat_add_one_of_lt lt
  refine ⟨h.err_ok, h.len_le, hs.trans_le lt, .trans ?_ h.rest⟩
  rw [units_slice_single lt hn, ← hs]
  rfl

/-- R92 over a unit of two bytes. -/
theorem HashInv.mix_pair (h : HashInv s) (hn : s.iCur.toNat + 1 < s.len.toNat)
    (hl : isLead (s.byteAt s.hs s.iCur.toNat) = true)
    (hc : isContinuation (s.byteAt s.hs (s.iCur.toNat + 1)) = true) :
    HashInv (mixPair (s.byteAt s.hs s.iCur.toNat) (s.byteAt s.hs (s.iCur.toNat + 1)) s) := by
  have hs : (s.iCur + 2).toNat = s.iCur.toNat + 2 := by bv_omega
  refine ⟨h.err_ok, h.len_le, hs.trans_le hn, .trans ?_ h.rest⟩
  rw [units_slice_pair hn hl hc, ← hs]
  rfl

/-- R92 at the acceptance. -/
theorem hashInv_accepted {b : Buf} (hl : s.len.toNat ≤ b.size) :
    HashInv { acceptCommand .hshRun s with hs := b, hash := 0 } :=
  ⟨rfl, hl, Nat.zero_le _, rfl⟩

/-- The mixing step leaves bits 31:28 clear (R85, R92): they are what `g` holds, and are taken out by the last step. -/
theorem mix_lt (h : Word) (u : Byte) : (mix h u).toNat < 2 ^ 28 := by
  rw [mix_eq]
  generalize (h <<< 4) + u.setWidth 32 = x
  have mask : ∀ i < 32, 28 ≤ i → (0xF0000000#32).getLsbD i = true := by decide
  refine toNat_lt_of_top_clear fun i hi => ?_
  rcases Nat.lt_or_ge i 32 with hlt | hge
  · have shifted : ((x &&& 0xF0000000#32) >>> 24).getLsbD i = false := by
      rw [BitVec.getLsbD_ushiftRight]
      exact BitVec.getLsbD_of_ge _ _ (by omega)
    rw [BitVec.getLsbD_xor, BitVec.getLsbD_xor, shifted, BitVec.getLsbD_and, mask i hlt hi]
    simp
  · exact BitVec.getLsbD_of_ge _ _ hge

/-! ### Every move keeps the invariant -/

/-- R71 and R92 over one micro-step, move by move. -/
theorem UnitMove.phaseInv (hm : UnitMove s t) (h : PhaseInv s) : PhaseInv t := by
  cases hm with
  | idle hp => exact h
  | scanDone | xlatDone | hashDone => exact phaseInv_of_idle rfl
  | scanAscii hp hi _ hb => exact ((h.scanInv hp).advance hi hb).phaseInv hp
  | scanHigh hp hi _ hb => exact ((h.scanInv hp).enter_copy hi hb).phaseInv rfl
  | copyByte hp ho => exact ((h.copyInv hp).copy_byte ho).phaseInv hp
  | copyDone hp ho => exact ((h.copyInv hp).enter_xlat ho).phaseInv rfl
  | xlatAscii hp hi hs ho hb => exact ((h.xlatInv hp).emit_ascii (.xlatAscii hp hi hs ho hb) hi hb).phaseInv hp
  | xlatHigh hp hi hs ho hb => exact ((h.xlatInv hp).emit_high (.xlatHigh hp hi hs ho hb) hi hb).phaseInv hp
  | hashPair hp _ hn hl hc => exact ((h.hashInv hp).mix_pair hn hl hc).phaseInv hp
  | hashSingle hp hi hn => exact ((h.hashInv hp).mix_single hi hn).phaseInv hp

/-- A micro-step goes on with the run, or completes it. -/
theorem UnitMove.busy_cases (hm : UnitMove s t) :
    (t.busy = s.busy ∧ (t.ph = .idle ↔ s.ph = .idle)) ∨ (t.busy = false ∧ t.ph = .idle) := by
  cases hm with
  | scanDone | xlatDone | hashDone => exact .inr ⟨rfl, rfl⟩
  | scanHigh hp | copyDone hp => exact .inl ⟨rfl, by simp [hp]⟩
  | _ => exact .inl ⟨rfl, .rfl⟩

theorem UnitMove.hash_lt (hm : UnitMove s t) (h : s.hash.toNat < 2 ^ 28) : t.hash.toNat < 2 ^ 28 := by
  cases hm with
  | hashPair | hashSingle => exact mix_lt _ _
  | _ => exact h

theorem UnitMove.obuf_wf (hm : UnitMove s t) (h : Memory.wf Buf.obuf.size s.obuf) : Memory.wf Buf.obuf.size t.obuf := by
  cases hm with
  | copyByte _ _ hs => exact store_wf h _ (hs.trans (by decide : Config.charCap < Buf.obuf.size))
  | xlatAscii _ _ _ ho => exact store_wf h _ ho
  | xlatHigh _ _ _ ho => exact store_wf (store_wf h _ (Nat.lt_of_succ_lt ho)) _ ho
  | _ => exact h

theorem XlatInv.oCur_le (h : XlatInv s) : s.oCur.toNat ≤ Config.byteCap := by
  have high : highCount (s.bytes .ibuf s.iCur.toNat) ≤ s.iCur.toNat := by
    simpa using highCount_le_length (s.bytes .ibuf s.iCur.toNat)
  have ho := h.o_eq
  have hi := h.i_le
  have hl := h.two_len_le
  show _ ≤ 510
  omega

theorem UnitMove.rlen_le (hm : UnitMove s t) (hp : PhaseInv s) (h : s.rlen.toNat ≤ Config.byteCap) :
    t.rlen.toNat ≤ Config.byteCap := by
  cases hm with
  | scanDone hs => exact (hp.scanInv hs).len_le.trans (by decide)
  | xlatDone hx => exact (hp.xlatInv hx).oCur_le
  | _ => exact h

theorem Invariant.unitMove (h : Invariant s) (hm : UnitMove s t) : Invariant t where
  ibuf_wf := by
    rw [hm.frame]
    exact h.ibuf_wf
  obuf_wf := hm.obuf_wf h.obuf_wf
  busy_iff := by
    rcases hm.busy_cases with ⟨hb, hp⟩ | ⟨hb, hp⟩
    · rw [hb, h.busy_iff]
      exact not_congr hp.symm
    · simp [hb, hp]
  hash_lt := hm.hash_lt h.hash_lt
  rlen_le := hm.rlen_le h.phase h.rlen_le
  phase := hm.phaseInv h.phase

theorem Invariant.commandMove {w : Word} (h : Invariant s) (hm : CommandMove w s t) : Invariant t := by
  cases hm with
  | dropped => exact h
  | refused hb c =>
    exact ⟨h.ibuf_wf, h.obuf_wf, h.busy_iff, h.hash_lt, h.rlen_le, phaseInv_of_idle (h.ph_idle hb)⟩
  | encAccepted _ _ hl hc =>
    exact ⟨h.ibuf_wf, h.obuf_wf, by simp, h.hash_lt, h.rlen_le, (scanInv_accepted hl hc).phaseInv rfl⟩
  | hashAccepted _ b _ hl =>
    exact ⟨h.ibuf_wf, h.obuf_wf, by simp, (by decide : (0 : Word).toNat < 2 ^ 28), h.rlen_le,
      (hashInv_accepted hl).phaseInv rfl⟩

theorem Invariant.hostWrite (h : Invariant s) (hh : HostWrite s t) : Invariant t := by
  have wf : Memory.wf Buf.ibuf.size t.ibuf ∧ Memory.wf Buf.obuf.size t.obuf := by
    cases hh with
    | byte _ b i v hi =>
      cases b with
      | ibuf => exact ⟨store_wf h.ibuf_wf v hi, h.obuf_wf⟩
      | obuf => exact ⟨h.ibuf_wf, store_wf h.obuf_wf v hi⟩
    | _ => exact ⟨h.ibuf_wf, h.obuf_wf⟩
  rcases hh.eq_or_idle with rfl | hb
  · exact h
  · have hp : t.ph = .idle := hh.ph.trans (h.ph_idle hb)
    have hbusy : t.busy = false := (congrArg (·.busy) hh.frame).trans hb
    exact ⟨wf.1, wf.2, by simp [hbusy, hp], hh.hash ▸ h.hash_lt, hh.rlen ▸ h.rlen_le, phaseInv_of_idle hp⟩

/-- What the host has issued and received is no part of the phase's invariant. -/
theorem PhaseInv.sameBlock (h : PhaseInv s) (hb : SameBlock s t) : PhaseInv t := by
  rw [hb]
  cases hp : s.ph with
  | idle => exact phaseInv_of_idle rfl
  | encScan =>
    have inv := h.scanInv hp
    exact ScanInv.phaseInv ⟨⟨inv.err_ok, inv.len_le, inv.cap_ge⟩, inv.i_le, inv.o_zero, inv.scanned⟩ rfl
  | encCopy =>
    have inv := h.copyInv hp
    exact CopyInv.phaseInv
      ⟨⟨inv.err_ok, inv.len_le, inv.cap_ge⟩, inv.i_lt, inv.high, inv.scanned, inv.o_le, inv.copied⟩ rfl
  | encXlat =>
    have inv := h.xlatInv hp
    exact XlatInv.phaseInv ⟨⟨inv.err_ok, inv.len_le, inv.cap_ge⟩, inv.i_le, inv.written, inv.o_eq, inv.slow⟩ rfl
  | hshRun =>
    have inv := h.hashInv hp
    exact HashInv.phaseInv ⟨inv.err_ok, inv.len_le, inv.i_le, inv.rest⟩ rfl

theorem Invariant.sameBlock (h : Invariant s) (hb : SameBlock s t) : Invariant t := by
  have phase := h.phase.sameBlock hb
  rw [hb] at phase ⊢
  exact ⟨h.ibuf_wf, h.obuf_wf, h.busy_iff, h.hash_lt, h.rlen_le, phase⟩

theorem invariant_resetEvent (s : State) : Invariant (resetEvent s) where
  ibuf_wf := reset_invariant.ibuf_wf
  obuf_wf := reset_invariant.obuf_wf
  busy_iff := reset_invariant.busy_iff
  hash_lt := reset_invariant.hash_lt
  rlen_le := reset_invariant.rlen_le
  phase := phaseInv_of_idle rfl

end

/-- Settles O30: each kind of step keeps every clause; a micro-step those of its phase by the lemmas above, a command word
starts a phase whose clauses its checks give, and a line of the host changes the block only while no unit runs. -/
theorem everyStepKeepsInvariant : Obligations.EveryStepKeepsInvariant := by
  intro s t h hstep
  cases step_move hstep with
  | unit hu hu' => exact (h.sameBlock (turnState_sameBlock s)).unitMove (unitStep_move hu')
  | reset hr ht => exact ht ▸ invariant_resetEvent _
  | command w hu hr hw hc => exact (h.sameBlock (popped_sameBlock s)).commandMove (commandWrite_move hc)
  | host hu hr hw u hh hb => exact (h.hostWrite hh).sameBlock hb

/-! ### The completion of `ENC` -/

theorem encodeName_of_all_isAscii {x : List Byte} (h : x.all isAscii = true) : encodeName x = (.unchanged, x) := by
  simp [encodeName, h]

theorem encodeName_of_not_all_isAscii {x : List Byte} (h : x.all isAscii = false) :
    encodeName x = (.converted, xlatAll x) := by
  simp [encodeName, h]

theorem Phase.ne_of_isEnc {p : Phase} (h : p.isEnc = true) : p ≠ .idle ∧ p ≠ .hshRun := by
  cases p <;> simp [Phase.isEnc] at h ⊢

/-- What the completion step of an `ENC` run, from `s`, leaves in `t` (R69). -/
structure EncCompleted (s t : State) : Prop where
  busy : t.busy = false
  err : t.err = .ok
  result : t.encResult = encodeName (s.operand .ibuf)
  rlen : t.rlen.toNat = s.len.toNat + (if t.rsel = .converted then highCount (s.operand .ibuf) else 0)
  /-- The run has written `OBUF` below `RLEN` on the slow path, and nothing of it on the fast path. -/
  oCur : s.oCur.toNat = if t.rsel = .converted then t.rlen.toNat else 0
  obuf : SameFrom .obuf 0 s t

section
variable {s t : State}

/-- The fast path: every byte has passed the scan, and the input is its own encoding (R62). -/
theorem ScanInv.completed (h : ScanInv s) (hi : s.iCur = s.len) :
    EncCompleted s { completeCommand s with rsel := .unchanged, rlen := s.len } where
  busy := rfl
  err := h.err_ok
  result := by
    have ascii := h.scanned
    rw [hi] at ascii
    exact (encodeName_of_all_isAscii ascii).symm
  rlen := rfl
  oCur := congrArg BitVec.toNat h.o_zero
  obuf _ _ := rfl

/-- The slow path: `OBUF` holds the translation of the whole input (R63). -/
theorem XlatInv.completed (h : XlatInv s) (hi : s.iCur = s.len) :
    EncCompleted s { completeCommand s with rsel := .converted, rlen := s.oCur } where
  busy := rfl
  err := h.err_ok
  result := by
    have written := h.written
    rw [hi] at written
    exact (congrArg (ResultSel.converted, ·) written).trans (encodeName_of_not_all_isAscii h.slow).symm
  rlen := by
    have ho := h.o_eq
    rw [hi] at ho
    exact ho
  oCur := rfl
  obuf _ _ := rfl

theorem UnitMove.encCompleted (hm : UnitMove s t) (h : PhaseInv s) (hs : s.ph.isEnc = true) (ht : t.ph = .idle) :
    EncCompleted s t := by
  cases hm with
  | scanDone hp hi => exact (h.scanInv hp).completed hi
  | xlatDone hp hi => exact (h.xlatInv hp).completed hi
  | idle hp | hashDone hp | hashPair hp | hashSingle hp => simp [hp, Phase.isEnc] at hs
  | scanHigh | copyDone => cases ht
  | scanAscii hp | copyByte hp | xlatAscii hp | xlatHigh hp => simp [hp] at ht

theorem SameBlock.operand (h : SameBlock s t) (b : Buf) : t.operand b = s.operand b :=
  congrArg (fun u => u.operand b) h

end

/-- Settles O34: only the unit's turn can end the run of a busy encoder, and by R71 its completion step leaves `Encode` of
the input. -/
theorem encCompletionLeavesEncode : Obligations.EncCompletionLeavesEncode := by
  intro s t inv hs hr hstep ht
  obtain ⟨hidle, hhash⟩ := Phase.ne_of_isEnc hs
  have hb : s.busy = true := inv.busy_iff.2 hidle
  cases step_move hstep with
  | unit hu h =>
    have hm := unitStep_move h
    have hsb := turnState_sameBlock s
    have hdone := hm.encCompleted (inv.phase.sameBlock hsb) (by simpa using hs) ht
    refine ⟨hdone.busy, hdone.err, ?_, ?_, hsb.sameOperands.trans hm.sameOperands, ?_⟩
    · rw [hdone.result, hsb.operand]
    · rw [hdone.rlen, hsb.operand, hsb.len]
    · rw [hm.hash_eq (by simpa using hhash), hsb.hash]
  | reset hr' => simp [hr] at hr'
  | command w hu hr hw h =>
    rw [(commandWrite_move h).eq_of_busy hb] at ht
    exact absurd ht hidle
  | host hu hr hw u hh h =>
    exact absurd ((h.ph.trans hh.ph).symm.trans ht) hidle

/-! ### Whole runs -/

section
variable {s t : State}

/-- A run in which every step takes one off a count and goes on until the count is 0 takes as many steps as the count
says. -/
theorem runsTo_of_count {P Q : State → Prop} {count : State → Nat}
    (hstep : ∀ s, P s → ∃ t, step s = .next t ∧ count s = count t + 1 ∧ (P t ∨ (count t = 0 ∧ Q t))) :
    ∀ {s : State}, P s →
      ∃ u, RunsTo (count s) s u ∧ (∀ n < count s, ∃ v, RunsTo n s v ∧ P v) ∧ Q u := by
  intro s hs
  generalize hc : count s = c
  induction c generalizing s with
  | zero =>
    obtain ⟨t, -, hct, -⟩ := hstep s hs
    omega
  | succ c ih =>
    obtain ⟨t, ht, hct, hP | ⟨h0, hQ⟩⟩ := hstep s hs
    · obtain ⟨u, hu, hbefore, hQ⟩ := ih hP (by omega)
      refine ⟨u, runsTo_succ ht hu, fun n hn => ?_, hQ⟩
      cases n with
      | zero => exact ⟨s, rfl, hs⟩
      | succ n =>
        obtain ⟨v, hv, hPv⟩ := hbefore n (by omega)
        exact ⟨v, runsTo_succ ht hv, hPv⟩
    · obtain rfl : c = 0 := by omega
      refine ⟨t, runsTo_succ ht rfl, fun n hn => ?_, hQ⟩
      obtain rfl : n = 0 := by omega
      exact ⟨s, rfl, hs⟩

theorem step_of_no_agenda (ha : s.agenda = []) : step s = unitStep s := by
  simp [step, nextTransition, ha]

/-- A unit at work always answers a next state (R71, R92). -/
theorem PhaseInv.unitStep_answers_next (h : PhaseInv s) : ∃ t, unitStep s = .next t := by
  cases hp : s.ph with
  | idle => exact ⟨s, by simp [unitStep, hp]⟩
  | encScan =>
    have inv := h.scanInv hp
    rw [unitStep_of_encScan hp]
    by_cases hi : s.iCur = s.len
    · exact ⟨_, encScanStep_of_done hi⟩
    · rw [encScanStep_of_lt (count_lt_of_le_of_ne inv.i_le hi) inv.len_le]
      split <;> exact ⟨_, rfl⟩
  | encCopy =>
    have inv := h.copyInv hp
    rw [unitStep_of_encCopy hp]
    rcases Nat.lt_or_ge s.oCur.toNat s.iCur.toNat with ho | ho
    · exact ⟨_, encCopyStep_of_lt ho (inv.i_lt.le.trans inv.len_le)⟩
    · exact ⟨_, encCopyStep_of_done ho⟩
  | encXlat =>
    have inv := h.xlatInv hp
    rw [unitStep_of_encXlat hp]
    by_cases hi : s.iCur = s.len
    · exact ⟨_, encXlatStep_of_done hi⟩
    · rw [encXlatStep_of_lt (count_lt_of_le_of_ne inv.i_le hi) inv.len_le
        ((inv.oCur_succ_lt hi).trans_le inv.two_len_le)]
      split <;> exact ⟨_, rfl⟩
  | hshRun =>
    have inv := h.hashInv hp
    rw [unitStep_of_hshRun hp, hashRunStep]
    split
    · exact ⟨_, rfl⟩
    · rename_i hi
      rw [unitRead_of_lt _ ((count_lt_of_le_of_ne inv.i_le hi).trans_le inv.len_le)]
      split
      · rename_i hn
        rw [unitRead_of_lt _ (hn.1.trans_le inv.len_le)]
        split <;> exact ⟨_, rfl⟩
      · exact ⟨_, rfl⟩

/-- How many micro-steps the encoder still takes (R74). -/
def encStepsLeft (s : State) : Nat :=
  match s.ph with
  | .encScan => encSteps (s.operand .ibuf) - s.iCur.toNat
  | .encCopy => s.len.toNat - s.oCur.toNat + 2
  | .encXlat => s.len.toNat - s.iCur.toNat + 1
  | .idle => 0
  | .hshRun => 0

theorem SameOperands.operand (h : SameOperands s t) : t.operand .ibuf = s.operand .ibuf := by
  obtain ⟨hlen, -, hibuf⟩ := h
  rw [State.operand, hlen]
  exact bytes_congr fun j _ => hibuf j

/-- A scan that has reached a byte at or above 0x80 has reached the first one. -/
theorem ScanInv.encSteps_of_high (h : ScanInv s) (hi : s.iCur ≠ s.len)
    (hb : isAscii (s.byteAt .ibuf s.iCur.toNat) = false) :
    encSteps (s.operand .ibuf) = s.len.toNat + s.iCur.toNat + 3 := by
  have lt := count_lt_of_le_of_ne h.i_le hi
  have cut : s.operand .ibuf = s.bytes .ibuf s.iCur.toNat ++ s.slice .ibuf s.iCur.toNat (s.len.toNat - s.iCur.toNat) :=
    bytes_eq_append_slice s .ibuf lt.le
  rw [slice_cons s .ibuf (Nat.sub_pos_of_lt lt)] at cut
  have slow : (s.operand .ibuf).all isAscii = false := by simp [cut, hb]
  have first : firstHigh (s.operand .ibuf) = s.iCur.toNat := by
    rw [cut, firstHigh_append_cons h.scanned hb, bytes_length]
  rw [encSteps_of_not_all_isAscii slow, first, operand_length]

/-- Every micro-step of the encoder is one of those left: the phases and cursors count them down (R74). -/
theorem UnitMove.encStepsLeft_eq (hm : UnitMove s t) (h : PhaseInv s) (hs : s.ph.isEnc = true) :
    encStepsLeft s = encStepsLeft t + 1 := by
  have hop := hm.sameOperands.operand
  have least : s.len.toNat + 1 ≤ encSteps (s.operand .ibuf) := by
    simpa using (stepCountBounds (s.operand .ibuf)).1
  cases hm with
  | idle hp | hashDone hp | hashPair hp | hashSingle hp => simp [hp, Phase.isEnc] at hs
  | scanDone hp hi =>
    have fast := (h.scanInv hp).scanned
    rw [hi] at fast
    have steps := encSteps_of_all_isAscii (x := s.operand .ibuf) fast
    rw [operand_length] at steps
    simp only [encStepsLeft, hp, completeCommand_ph, hi]
    omega
  | scanAscii hp hi =>
    have lt := count_lt_of_le_of_ne (h.scanInv hp).i_le hi
    simp only [encStepsLeft, hop]
    simp only [hp, toNat_add_one_of_lt lt]
    omega
  | scanHigh hp hi _ hb =>
    have inv := h.scanInv hp
    have ho : s.oCur.toNat = 0 := congrArg BitVec.toNat inv.o_zero
    simp only [encStepsLeft, hp, inv.encSteps_of_high hi hb, ho]
    omega
  | copyByte hp ho =>
    have lt := (h.copyInv hp).oCur_lt ho
    simp only [encStepsLeft, hp, setByte_ph, setByte_len, toNat_add_one_of_lt lt]
    omega
  | copyDone hp ho =>
    simp only [encStepsLeft, hp, (h.copyInv hp).oCur_eq ho]
  | xlatDone hp hi =>
    simp only [encStepsLeft, hp, completeCommand_ph, hi]
    omega
  | xlatAscii hp hi | xlatHigh hp hi =>
    have lt := count_lt_of_le_of_ne (h.xlatInv hp).i_le hi
    simp only [encStepsLeft, hp, setByte_ph, setByte_len, toNat_add_one_of_lt lt]
    omega

/-- The encoder is at work in `s` on the command that was accepted with the operands, `HASH` and `OBUF` of `s₀`. -/
structure EncRunning (s₀ s : State) : Prop where
  busy : s.busy = true
  enc : s.ph.isEnc = true
  inv : PhaseInv s
  agenda : s.agenda = []
  operands : SameOperands s₀ s
  hash : s.hash = s₀.hash
  obuf : SameFrom .obuf s.oCur.toNat s₀ s

theorem SameFrom.mono {b : Buf} {m n : Nat} (h : SameFrom b m s t) (hle : m ≤ n) : SameFrom b n s t :=
  fun j hj => h j (hle.trans hj)

/-- `O` only moves forward, and a micro-step that goes on writes below the `O` it leaves. -/
theorem UnitMove.writes_below_oCur (hm : UnitMove s t) (h : PhaseInv s) (ht : t.ph ≠ .idle) :
    s.oCur.toNat ≤ t.oCur.toNat ∧ SameFrom .obuf t.oCur.toNat s t := by
  cases hm with
  | scanDone | xlatDone | hashDone => exact absurd rfl ht
  | idle | scanAscii | scanHigh | copyDone | hashPair | hashSingle => exact ⟨le_rfl, fun _ _ => rfl⟩
  | copyByte hp ho =>
    have hn : (s.oCur + 1).toNat = s.oCur.toNat + 1 := toNat_add_one_of_lt ((h.copyInv hp).oCur_lt ho)
    refine ⟨hn.symm ▸ Nat.le_succ _, fun j hj => byteAt_setByte_of_ne s _ (.inr ?_)⟩
    have hj : (s.oCur + 1).toNat ≤ j := hj
    omega
  | xlatAscii hp hi =>
    have hn := (h.xlatInv hp).oCur_add_one hi
    refine ⟨hn.symm ▸ Nat.le_succ _, fun j hj => byteAt_setByte_of_ne s _ (.inr ?_)⟩
    have hj : (s.oCur + 1).toNat ≤ j := hj
    omega
  | xlatHigh hp hi =>
    have hn := (h.xlatInv hp).oCur_add_two hi
    refine ⟨hn.symm ▸ Nat.le_add_right _ 2, fun j hj => ?_⟩
    have hj : (s.oCur + 2).toNat ≤ j := hj
    exact (byteAt_setByte_of_ne _ _ (.inr (by omega))).trans (byteAt_setByte_of_ne s _ (.inr (by omega)))

theorem UnitMove.isEnc (hm : UnitMove s t) (hs : s.ph.isEnc = true) (ht : t.ph ≠ .idle) : t.ph.isEnc = true := by
  cases hm with
  | scanDone | xlatDone | hashDone => exact absurd rfl ht
  | scanHigh | copyDone => rfl
  | _ => exact hs

/-- A micro-step that does not complete the command goes on with the run. -/
theorem EncRunning.unitMove {s₀ : State} (h : EncRunning s₀ s) (hm : UnitMove s t) (ht : t.ph ≠ .idle) :
    EncRunning s₀ t := by
  obtain ⟨hle, written⟩ := hm.writes_below_oCur h.inv ht
  exact {
    busy := by
      rcases hm.busy_cases with ⟨hb, -⟩ | ⟨-, hp⟩
      · exact hb.trans h.busy
      · exact absurd hp ht
    enc := hm.isEnc h.enc ht
    inv := hm.phaseInv h.inv
    agenda := (congrArg (·.agenda) hm.frame).trans h.agenda
    operands := h.operands.trans hm.sameOperands
    hash := (hm.hash_eq (Phase.ne_of_isEnc h.enc).2).trans h.hash
    obuf := (h.obuf.mono hle).trans written }

/-- With no host move in between, the next step is a micro-step, which goes on with the run or completes it. -/
theorem EncRunning.step_next {s₀ : State} (h : EncRunning s₀ s) :
    ∃ t, step s = .next t ∧ encStepsLeft s = encStepsLeft t + 1 ∧
      (EncRunning s₀ t ∨ (encStepsLeft t = 0 ∧ ∃ v, EncRunning s₀ v ∧ UnitMove v t ∧ t.ph = .idle)) := by
  obtain ⟨t, ht⟩ := h.inv.unitStep_answers_next
  have hm := unitStep_move ht
  refine ⟨t, (step_of_no_agenda h.agenda).trans ht, hm.encStepsLeft_eq h.inv h.enc, ?_⟩
  by_cases hp : t.ph = .idle
  · exact .inr ⟨by simp only [encStepsLeft, hp], s, h, hm, hp⟩
  · exact .inl (h.unitMove hm hp)

end

/-- Settles O32: an accepted `ENC` counts down the steps of R74 as long as it runs, and its completion step leaves `Encode`
of the input in `OBUF` below `O`, or in `IBUF`. -/
theorem encRunsToEncode : Obligations.EncRunsToEncode := by
  intro s hb ha hl hc
  have start : EncRunning s { acceptCommand .encScan s with oCur := 0 } :=
    { busy := rfl, enc := rfl, inv := (scanInv_accepted hl hc).phaseInv rfl, agenda := ha,
      operands := ⟨rfl, rfl, fun _ => rfl⟩, hash := rfl, obuf := fun _ _ => rfl }
  obtain ⟨u, hrun, hbefore, v, hv, hm, hu⟩ := runsTo_of_count (fun _ => EncRunning.step_next) start
  have hdone := hm.encCompleted hv.inv hv.enc hu
  have result : u.encResult = encodeName (s.operand .ibuf) := hv.operands.operand ▸ hdone.result
  refine ⟨_, u, ?_, hrun, fun n hn => (hbefore n hn).imp fun w hw => ⟨hw.1, hw.2.busy⟩,
    ⟨(congrArg (·.agenda) hm.frame).trans hv.agenda, hu⟩, hdone.busy, hdone.err, result, ?_,
    hv.operands.trans hm.sameOperands, (hm.hash_eq (Phase.ne_of_isEnc hv.enc).2).trans hv.hash, ?_⟩
  · exact (unlessBusy_of_idle _ hb).trans ((withLength_of_le _ hl).trans (withCapacity_of_le _ hc))
  · rw [← result]
    exact (bytes_length u _ _).symm
  · rw [← hdone.oCur]
    exact hv.obuf.trans (hdone.obuf.mono (Nat.zero_le _))

end Sys2Proof.Machine

/-! PROOFS. The hasher (spec/41_hasher.md): the mixing step and the cut into units on numbers, the acceptance of the hash
commands, the micro-step of `HSH_RUN`, and whole runs, which leave `Hash` of the selected bytes and nothing else changed. -/

namespace Sys2Proof.Machine

/-! ### The mixing step -/

/-- The sum of R85, the low 32 bits of `h * 16 + u`, from its number. -/
theorem shiftLeft_add_eq_of_toNat {h h1 : Word} {u : Byte}
    (h1_eq : h1.toNat = (h.toNat * 2 ^ 4 + u.toNat) % 2 ^ 32) : (h <<< 4) + u.setWidth 32 = h1 := by
  apply BitVec.eq_of_toNat_eq
  rw [h1_eq, BitVec.toNat_add, BitVec.toNat_shiftLeft, BitVec.toNat_setWidth_of_le (by decide), Nat.shiftLeft_eq,
    Nat.mod_add_mod]

/-- Settles O45: `mix_eq` at the sum of R85; where `g` is 0, both exclusive-ors change nothing. -/
theorem mixingStep : Obligations.MixingStep := by
  rintro h h1 _ u h1_eq rfl
  have form : mix h u = (h1 ^^^ ((h1 &&& 0xF0000000#32) >>> 24)) ^^^ (h1 &&& 0xF0000000#32) := by
    rw [mix_eq, shiftLeft_add_eq_of_toNat h1_eq]
  refine ⟨fun _ => form, fun hg => ?_, form⟩
  rw [form, hg]
  simp

/-- A fold of the mixing step from 0 is 0 or the outcome of a mixing step (R86, R92). -/
theorem pjw_lt (us : List Byte) : (pjw us).toNat < 2 ^ 28 := by
  rcases List.eq_nil_or_concat' us with rfl | ⟨us, u, rfl⟩
  · decide
  · rw [pjw, List.foldl_concat]
    exact mix_lt _ u

/-- Settles O46: every mixing step clears the top nibble, and a hash is 0 or ends in a mixing step. -/
theorem hashBelowTwoToThe28 : Obligations.HashBelowTwoToThe28 :=
  ⟨mix_lt, fun x => Nat.le_of_lt_succ (pjw_lt (units x))⟩

/-! ### The cut into units -/

theorem isLead_iff_and (v : Byte) : isLead v = true ↔ v &&& 0xFE#8 = 0xC2#8 := decide_eq_true_iff

theorem isContinuation_iff_and (v : Byte) : isContinuation v = true ↔ v &&& 0xC0#8 = 0x80#8 := decide_eq_true_iff

/-- The fold as a number, kept to 8 bits (R82, R83). -/
theorem foldPair_eq_ofNat (v next : Byte) :
    foldPair v next = BitVec.ofNat 8 (v.toNat * 2 ^ 6 ||| (next &&& 0x3F#8).toNat) := by
  apply BitVec.eq_of_toNat_eq
  rw [foldPair, BitVec.toNat_or, BitVec.toNat_shiftLeft, Nat.shiftLeft_eq, BitVec.toNat_ofNat, Nat.or_mod_two_pow,
    Nat.mod_eq_of_lt (next &&& 0x3F#8).isLt]

/-- Settles O47: the two tests of the cut are those of R82, and so is the fold. -/
theorem unitsCutGreedily : Obligations.UnitsCutGreedily := by
  refine ⟨rfl, fun _ => rfl, fun v next rest => ?_⟩
  rw [← isLead_iff_and, ← isContinuation_iff_and, ← Bool.and_eq_true, ← foldPair_eq_ofNat]
  exact ⟨units_pair rest, fun h => units_single rest (Bool.eq_false_iff.2 h)⟩

/-! ### Acceptance -/

/-- R88 for an idle block: the length check, then the acceptance. -/
theorem hashCommand_of_idle (b : Buf) {s : State} (hb : s.busy = false) :
    hashCommand b s =
      if b.size < s.len.toNat then .next (raiseErr .invalidLength s)
      else .next { acceptCommand .hshRun s with hs := b, hash := 0 } := by
  rw [hashCommand, unlessBusy_of_idle _ hb]
  split
  · exact withLength_of_gt _ ‹_›
  · exact withLength_of_le _ (Nat.not_lt.1 ‹_›)

theorem step_of_presented_command {s : State} {i : Instr} (h : s.presentedWord = some (encode i)) :
    step s = exec i s.popped :=
  (step_of_presentedWord h).trans (commandWrite_of_decode (decode_encode i) s.popped)

/-- Settles O8: the two commands are one check and one acceptance, with the size of their own buffer; the step at a
command's word runs it. -/
theorem hashAcceptance : Obligations.HashAcceptance :=
  ⟨fun _ hb => ⟨hashCommand_of_idle .ibuf hb, hashCommand_of_idle .obuf hb⟩,
    fun _ _ => ⟨step_of_presented_command (i := .hashI), step_of_presented_command (i := .hashO)⟩⟩

/-! ### The micro-step of the hasher -/

theorem hashRunStep_of_done {s : State} (hi : s.iCur = s.len) : hashRunStep s = .next (completeCommand s) := if_pos hi

/-- Before `LEN` the micro-step mixes one unit, of two bytes under the three conditions of the fold (R89). -/
theorem hashRunStep_of_lt {s : State} (lt : s.iCur.toNat < s.len.toNat) (hl : s.len.toNat ≤ s.hs.size) :
    hashRunStep s =
      if s.iCur.toNat + 1 < s.len.toNat ∧ isLead (s.byteAt s.hs s.iCur.toNat) = true ∧
          isContinuation (s.byteAt s.hs (s.iCur.toNat + 1)) = true then
        .next (mixPair (s.byteAt s.hs s.iCur.toNat) (s.byteAt s.hs (s.iCur.toNat + 1)) s)
      else .next (mixSingle (s.byteAt s.hs s.iCur.toNat) s) := by
  rw [hashRunStep, if_neg fun h => lt.ne (congrArg _ h), unitRead_of_lt _ (lt.trans_le hl)]
  by_cases hn : s.iCur.toNat + 1 < s.len.toNat ∧ isLead (s.byteAt s.hs s.iCur.toNat) = true
  · rw [if_pos hn, unitRead_of_lt _ (hn.1.trans_le hl)]
    simp only [hn, true_and]
  · rw [if_neg hn, if_neg fun ⟨hlt, hlead, _⟩ => hn ⟨hlt, hlead⟩]

/-- Settles O20: the run at `LEN` completes and elsewhere mixes one unit, cut as R82 cuts it. -/
theorem hashRunStep_mixes_one_unit : Obligations.HashRunStep := by
  intro s hp hle hl
  rw [unitStep_of_hshRun hp]
  refine ⟨fun hi => ⟨_, hashRunStep_of_done hi, rfl⟩, fun hi => ?_⟩
  rw [hashRunStep_of_lt (count_lt_of_le_of_ne hle hi) hl]
  simp only [isLead_iff_and, isContinuation_iff_and, ← foldPair_eq_ofNat]
  rfl

/-! ### The frame of a hash run -/

/-- What a hash command leaves as it was: `LEN`, `CAP`, both buffers, `RSEL` and `RLEN` (R90). -/
structure HashFrame (s t : State) : Prop where
  operands : SameOperands s t
  obuf : SameFrom .obuf 0 s t
  rsel : t.rsel = s.rsel
  rlen : t.rlen = s.rlen

section
variable {s t : State}

theorem HashFrame.trans {u : State} (h : HashFrame s t) (h' : HashFrame t u) : HashFrame s u :=
  ⟨h.operands.trans h'.operands, h.obuf.trans h'.obuf, h'.rsel.trans h.rsel, h'.rlen.trans h.rlen⟩

theorem SameBlock.hashFrame (h : SameBlock s t) : HashFrame s t := ⟨h.sameOperands, h.sameFrom .obuf 0, h.rsel, h.rlen⟩

theorem UnitMove.hashFrame (hm : UnitMove s t) (hp : s.ph = .hshRun) : HashFrame s t := by
  obtain ⟨rsel, rlen⟩ := hm.result_cases.resolve_right (by simp [hp])
  exact ⟨hm.sameOperands, hm.sameFrom_obuf (by simp [hp]) (by simp [hp]) 0, rsel, rlen⟩

/-- The bytes a hash command is about stay, in whichever buffer they are. -/
theorem HashFrame.operand (h : HashFrame s t) (b : Buf) : t.operand b = s.operand b := by
  obtain ⟨hlen, -, hibuf⟩ := h.operands
  rw [State.operand, hlen]
  cases b with
  | ibuf => exact bytes_congr fun j _ => hibuf j
  | obuf => exact bytes_congr fun j _ => h.obuf j (Nat.zero_le j)

theorem SameBlock.hs (h : SameBlock s t) : t.hs = s.hs := congrArg (·.hs) h

/-! ### The completion of a hash command -/

/-- With no unit left, the accumulator is the hash (R90). -/
theorem HashInv.hash_of_done (h : HashInv s) (hi : s.iCur = s.len) : s.hash = hashName (s.operand s.hs) := by
  have rest := h.rest
  rw [hi, Nat.sub_self] at rest
  exact rest

/-- The only micro-step that ends a hash run is the completion step, at `LEN`. -/
theorem UnitMove.hash_completed (hm : UnitMove s t) (hp : s.ph = .hshRun) (ht : t.ph = .idle) :
    s.iCur = s.len ∧ t = completeCommand s := by
  cases hm with
  | hashDone _ hi => exact ⟨hi, rfl⟩
  | hashPair | hashSingle => simp [hp] at ht
  | _ hp' => simp [hp] at hp'

/-- What the completion step of a hash command leaves in `STATUS` and `HASH` (R90). -/
theorem HashInv.completed (h : HashInv s) (hi : s.iCur = s.len) :
    (completeCommand s).busy = false ∧ (completeCommand s).err = .ok ∧
      (completeCommand s).hash = hashName (s.operand s.hs) :=
  ⟨rfl, h.err_ok, h.hash_of_done hi⟩

end

/-- Settles O35: only the unit's turn can end the run of a busy hasher, and its completion step finds every unit mixed. -/
theorem hashCompletionLeavesHash : Obligations.HashCompletionLeavesHash := by
  intro s t inv hp hr hstep ht
  have hidle : s.ph ≠ .idle := by simp [hp]
  have hb : s.busy = true := inv.busy_iff.2 hidle
  cases step_move hstep with
  | unit hu h =>
    have hsb := turnState_sameBlock s
    have hp' : s.turnState.ph = .hshRun := hsb.ph.trans hp
    have hm := unitStep_move h
    have hf := hsb.hashFrame.trans (hm.hashFrame hp')
    obtain ⟨hi, rfl⟩ := hm.hash_completed hp' ht
    obtain ⟨busy, err, hash⟩ := ((inv.phase.sameBlock hsb).hashInv hp').completed hi
    rw [hsb.operand, hsb.hs] at hash
    exact ⟨busy, err, hash, hf.operands, hf.obuf, hf.rsel, hf.rlen⟩
  | reset hr' => simp [hr] at hr'
  | command w hu hr hw h =>
    rw [(commandWrite_move h).eq_of_busy hb] at ht
    exact absurd ht hidle
  | host hu hr hw u hh h => exact absurd ((h.ph.trans hh.ph).symm.trans ht) hidle

/-! ### Whole runs of the hasher -/

/-- How many micro-steps the hasher still takes: one for each unit not yet mixed, and the completion step (R96). -/
def hashStepsLeft (s : State) : Nat :=
  match s.ph with
  | .hshRun => hashSteps (s.slice s.hs s.iCur.toNat (s.len.toNat - s.iCur.toNat))
  | .idle => 0
  | .encScan => 0
  | .encCopy => 0
  | .encXlat => 0

/-- The hasher is at work in `s` on the bytes of `b`, on a command that was accepted in `s₀`. -/
structure HashRunning (b : Buf) (s₀ s : State) : Prop where
  busy : s.busy = true
  ph : s.ph = .hshRun
  hs : s.hs = b
  inv : HashInv s
  agenda : s.agenda = []
  frame : HashFrame s₀ s

section
variable {s t : State}

/-- Every micro-step of the hasher is one of those left: it mixes the first unit of the rest, or completes (R96). -/
theorem UnitMove.hashStepsLeft_eq (hm : UnitMove s t) (h : HashInv s) (hp : s.ph = .hshRun) :
    hashStepsLeft s = hashStepsLeft t + 1 := by
  cases hm with
  | hashDone _ hi => simp [hashStepsLeft, hashSteps, hp, hi]
  | hashPair _ _ hn hl hc =>
    have hs : (s.iCur + 2).toNat = s.iCur.toNat + 2 := by bv_omega
    simp only [hashStepsLeft, hashSteps, hp, mixPair_ph, units_slice_pair hn hl hc, List.length_cons, ← hs]
    rfl
  | hashSingle _ hi hn =>
    have lt := count_lt_of_le_of_ne h.i_le hi
    have hs : (s.iCur + 1).toNat = s.iCur.toNat + 1 := toNat_add_one_of_lt lt
    simp only [hashStepsLeft, hashSteps, hp, mixSingle_ph, units_slice_single lt hn, List.length_cons, ← hs]
    rfl
  | _ hp' => simp [hp] at hp'

/-- A micro-step that does not complete the command goes on with the run. -/
theorem HashRunning.unitMove {b : Buf} {s₀ : State} (h : HashRunning b s₀ s) (hm : UnitMove s t) (ht : t.ph ≠ .idle) :
    HashRunning b s₀ t := by
  have hf := h.frame.trans (hm.hashFrame h.ph)
  have hp := h.ph
  cases hm with
  | hashDone => exact absurd rfl ht
  | hashPair _ _ hn hl hc => exact ⟨h.busy, hp, h.hs, h.inv.mix_pair hn hl hc, h.agenda, hf⟩
  | hashSingle _ hi hn => exact ⟨h.busy, hp, h.hs, h.inv.mix_single hi hn, h.agenda, hf⟩
  | _ hp' => simp [hp] at hp'

/-- With no host move in between, the next step is a micro-step, which goes on with the run or completes it. -/
theorem HashRunning.step_next {b : Buf} {s₀ : State} (h : HashRunning b s₀ s) :
    ∃ t, step s = .next t ∧ hashStepsLeft s = hashStepsLeft t + 1 ∧
      (HashRunning b s₀ t ∨
        (hashStepsLeft t = 0 ∧ ∃ v, HashRunning b s₀ v ∧ v.iCur = v.len ∧ t = completeCommand v)) := by
  obtain ⟨t, ht⟩ := (h.inv.phaseInv h.ph).unitStep_answers_next
  have hm := unitStep_move ht
  refine ⟨t, (step_of_no_agenda h.agenda).trans ht, hm.hashStepsLeft_eq h.inv h.ph, ?_⟩
  by_cases hp : t.ph = .idle
  · exact .inr ⟨by simp only [hashStepsLeft, hp], s, h, hm.hash_completed h.ph hp⟩
  · exact .inl (h.unitMove hm hp)

end

/-- Settles O33: an accepted hash command counts down its units as long as it runs, and its completion step finds all of
them mixed. -/
theorem hashRunsToHash : Obligations.HashRunsToHash := by
  intro i b s hib hb ha hl
  have start : HashRunning b s { acceptCommand .hshRun s with hs := b, hash := 0 } :=
    ⟨rfl, rfl, rfl, hashInv_accepted hl, ha, ⟨rfl, rfl, fun _ => rfl⟩, fun _ _ => rfl, rfl, rfl⟩
  have accepted : exec i s = .next { acceptCommand .hshRun s with hs := b, hash := 0 } := by
    have hi : i = b.hashInstr := by rcases hib with ⟨rfl, rfl⟩ | ⟨rfl, rfl⟩ <;> rfl
    rw [hi, exec_hashInstr, hashCommand_of_idle b hb, if_neg (Nat.not_lt.2 hl)]
  obtain ⟨_, hrun, hbefore, v, hv, hi, rfl⟩ := runsTo_of_count (fun _ => HashRunning.step_next) start
  obtain ⟨busy, err, hash⟩ := hv.inv.completed hi
  have hf := hv.frame.trans (UnitMove.hashFrame (.hashDone hv.ph hi) hv.ph)
  rw [hv.frame.operand, hv.hs] at hash
  exact ⟨_, _, accepted, hrun, fun n hn => (hbefore n hn).imp fun w hw => ⟨hw.1, hw.2.busy⟩, ⟨hv.agenda, rfl⟩,
    busy, err, hash, hf.operands, hf.obuf, hf.rsel, hf.rlen⟩

end Sys2Proof.Machine

/-! PROOFS. The laws of the functions (spec/42_laws.md): the length, the bytes and the tag of an encoding, that it loses
nothing, how hashing meets it, and the closed form of short names. -/

namespace Sys2Proof.Machine

/-! ### The length of an encoding -/

theorem highCount_eq_zero_iff (x : List Byte) : highCount x = 0 ↔ ∀ b ∈ x, b < 0x80#8 := by
  simp [highCount, List.countP_eq_zero, isAscii_iff]

theorem highCount_eq_length_iff (x : List Byte) : highCount x = x.length ↔ ∀ b ∈ x, 0x80#8 ≤ b := by
  simp [highCount, List.countP_eq_length, isAscii_eq_false_iff]

theorem length_encodeName (x : List Byte) : (encodeName x).2.length = x.length + highCount x := by
  rw [encodeName_snd, length_xlatAll]

/-- Settles O41: a byte at or above 0x80 adds one to the length, and the completion of `ENC` leaves in `RLEN` the length
and at most its count of such bytes. -/
theorem encodingLength : Obligations.EncodingLength := by
  refine ⟨fun x _ => ?_, fun s t hinv hs hr hstep ht => ?_⟩
  · have high := highCount_le_length x
    rw [length_encodeName, ← highCount_eq_zero_iff, ← highCount_eq_length_iff]
    omega
  · obtain ⟨-, -, -, rlen, ⟨len, -⟩, -⟩ := encCompletionLeavesEncode s t hinv hs hr hstep ht
    have high : highCount (s.operand .ibuf) ≤ s.len.toNat := by simpa using highCount_le_length (s.operand .ibuf)
    rw [rlen, len]
    split <;> omega

/-! ### The bytes of an encoding -/

/-- R106 (c), on any sequence: bytes below 0x80 stand alone, and lead and continuation bytes come in pairs. -/
def PairedUtf8 (y : List Byte) : Prop :=
  ∀ (j : Nat) (b : Byte), y[j]? = some b →
    (isAscii b = true ∨ isContinuation b = true ∨ isLead b = true) ∧
    (isLead b = true → ∃ n, y[j + 1]? = some n ∧ isContinuation n = true) ∧
    (isContinuation b = true → ∃ k v, j = k + 1 ∧ y[k]? = some v ∧ isLead v = true)

theorem pairedUtf8_nil : PairedUtf8 [] := by simp [PairedUtf8]

theorem PairedUtf8.cons_ascii {y : List Byte} {a : Byte} (h : PairedUtf8 y) (ha : isAscii a = true) :
    PairedUtf8 (a :: y) := by
  intro j b hb
  cases j with
  | zero =>
    obtain rfl : a = b := by simpa using hb
    simp [ha, not_isLead_of_isAscii ha, not_isContinuation_of_isAscii ha]
  | succ j =>
    obtain ⟨kind, lead, cont⟩ := h j b hb
    refine ⟨kind, lead, fun hc => ?_⟩
    obtain ⟨k, v, rfl, hv⟩ := cont hc
    exact ⟨k + 1, v, rfl, hv⟩

theorem PairedUtf8.cons_pair {y : List Byte} {l c : Byte} (h : PairedUtf8 y) (hl : isLead l = true)
    (hc : isContinuation c = true) : PairedUtf8 (l :: c :: y) := by
  intro j b hb
  match j with
  | 0 =>
    obtain rfl : l = b := by simpa using hb
    exact ⟨.inr (.inr hl), fun _ => ⟨c, rfl, hc⟩, fun h => by simp [not_isContinuation_of_isLead hl] at h⟩
  | 1 =>
    obtain rfl : c = b := by simpa using hb
    exact ⟨.inr (.inl hc), fun h => by simp [not_isContinuation_of_isLead h] at hc, fun _ => ⟨0, l, rfl, rfl, hl⟩⟩
  | j + 2 =>
    obtain ⟨kind, lead, cont⟩ := h j b hb
    refine ⟨kind, lead, fun hc => ?_⟩
    obtain ⟨k, v, rfl, hv⟩ := cont hc
    exact ⟨k + 2, v, rfl, hv⟩

theorem pairedUtf8_xlatAll (x : List Byte) : PairedUtf8 (xlatAll x) := by
  induction x with
  | nil => exact pairedUtf8_nil
  | cons b x ih =>
    rw [xlatAll_cons]
    cases hb : isAscii b
    · rw [xlat_of_not_isAscii hb]
      exact ih.cons_pair (isLead_leadOf hb) (isContinuation_trailOf hb)
    · rw [xlat_of_isAscii hb]
      exact ih.cons_ascii hb

/-- Settles O42: a byte below 0x80 is translated to itself and any other to a lead and a continuation byte, so that the
translation of a sequence is built of these. -/
theorem encodingIsMinimalUtf8 : Obligations.EncodingIsMinimalUtf8 := by
  intro x j b _ hb
  rw [encodeName_snd] at hb ⊢
  simpa only [isAscii_iff, isLead_iff] using pairedUtf8_xlatAll x j b hb

/-! ### The encoding loses nothing -/

/-- Cutting an encoding into units is decoding it (R107). -/
theorem units_encodeName (x : List Byte) : units (encodeName x).2 = x := by rw [encodeName_snd, units_xlatAll]

theorem hashName_encodeName (x : List Byte) : hashName (encodeName x).2 = pjw x :=
  congrArg pjw (units_encodeName x)

/-- Settles O49: the units of the encoding are the original bytes. -/
theorem hashOfEncodingIsPlainMixing : Obligations.HashOfEncodingIsPlainMixing :=
  fun x _ => ⟨units_encodeName x, hashName_encodeName x⟩

/-- Settles O43: the units of the encoding give the name back. -/
theorem encodingIsInjective : Obligations.EncodingIsInjective := by
  intro x z _ _ h
  rw [← units_encodeName x, h, units_encodeName]

/-! ### The tag -/

theorem encodeName_converted_iff (x : List Byte) : (encodeName x).1 = .converted ↔ ∃ b ∈ x, 0x80#8 ≤ b := by
  cases h : x.all isAscii
  · simpa [encodeName_of_not_all_isAscii h, isAscii_eq_false_iff] using h
  · simpa [encodeName_of_all_isAscii h] using (all_isAscii_iff x).1 h

theorem encodeName_unchanged_iff (x : List Byte) : (encodeName x).1 = .unchanged ↔ ∀ b ∈ x, b < 0x80#8 := by
  rw [← all_isAscii_iff]
  cases h : x.all isAscii
  · simp [encodeName_of_not_all_isAscii h]
  · simp [encodeName_of_all_isAscii h]

/-- The output is the input only when no byte has been made two. -/
theorem encodeName_snd_eq_self_iff (x : List Byte) : (encodeName x).2 = x ↔ ∀ b ∈ x, b < 0x80#8 := by
  refine ⟨fun h => ?_, fun h => ?_⟩
  · have length := length_encodeName x
    rw [h] at length
    exact (highCount_eq_zero_iff x).1 (by omega)
  · rw [encodeName_of_all_isAscii ((all_isAscii_iff x).2 h)]

/-- Settles O44: both sides of each tag clause say whether a byte is at or above 0x80, and the output is the translation
byte by byte. -/
theorem encodingTagAndConcatenation : Obligations.EncodingTagAndConcatenation := by
  intro x z _
  refine ⟨encodeName_converted_iff x, ?_, ?_, ?_⟩
  · rw [encodeName_unchanged_iff, encodeName_snd_eq_self_iff]
  · simp only [encodeName_snd, xlatAll_append]
  · simp only [encodeName_converted_iff, List.mem_append, or_and_right, exists_or]

/-! ### Sums without a carry out of the low 28 bits -/

/-- A word below `2 ^ 28` has a clear top nibble. -/
theorem and_top_eq_zero_of_lt {w : Word} (lt : w.toNat < 2 ^ 28) : w &&& 0xF0000000#32 = 0#32 := by
  have mask : ∀ i < 28, (0xF0000000#32).getLsbD i = false := by decide
  ext i hi
  rw [BitVec.getElem_and, BitVec.getElem_zero, Bool.and_eq_false_iff]
  rcases Nat.lt_or_ge i 28 with low | high
  · exact .inr (mask i low)
  · exact .inl (Nat.testBit_lt_two_pow (lt.trans_le (Nat.pow_le_pow_right (by decide) high)))

/-- Below `2 ^ 28` the test of `g` fails, and the mixing step is a digit appended in base 16 (R85). -/
theorem mix_toNat_of_lt {h : Word} {u : Byte} (lt : h.toNat * 16 + u.toNat < 2 ^ 28) :
    (mix h u).toNat = h.toNat * 16 + u.toNat := by
  have sum : ((h <<< 4) + u.setWidth 32).toNat = h.toNat * 16 + u.toNat := by bv_omega
  rw [mix_eq]
  generalize (h <<< 4) + u.setWidth 32 = h1 at sum
  have clear := and_top_eq_zero_of_lt (sum.trans_lt lt)
  simp [clear, sum]

/-- The bound is `17 * 16 ^ n - 17`, the sum of `n` units of 255: with it, no partial sum of five units reaches
`2 ^ 28`. -/
theorem foldl_mix_toNat (us : List Byte) :
    ∀ h : Word, (h.toNat + 17) * 16 ^ us.length ≤ 17 * 16 ^ 5 →
      (us.foldl mix h).toNat = us.foldl (fun a u => a * 16 + u.toNat) h.toNat := by
  induction us with
  | nil => exact fun _ _ => rfl
  | cons u us ih =>
    intro h bound
    rw [List.length_cons, Nat.pow_succ', ← Nat.mul_assoc] at bound
    have digit : h.toNat * 16 + u.toNat + 17 ≤ (h.toNat + 17) * 16 := by omega
    have bound := (Nat.mul_le_mul_right (16 ^ us.length) digit).trans bound
    have small : h.toNat * 16 + u.toNat + 17 ≤ 17 * 16 ^ 5 := (Nat.le_mul_of_pos_right _ (by positivity)).trans bound
    have step := mix_toNat_of_lt (h := h) (u := u) (by omega)
    rw [List.foldl_cons, List.foldl_cons, ih (mix h u) (by rwa [step]), step]

/-- Settles O51: five units of at most 255 sum up to less than `2 ^ 28`. -/
theorem shortNamesHashToPlainSum : Obligations.ShortNamesHashToPlainSum :=
  fun x hx => foldl_mix_toNat (units x) 0
    (Nat.mul_le_mul_left 17 (Nat.pow_le_pow_right (by decide) hx))

/-! ### One character -/

theorem hashName_singleton (b : Byte) : hashName [b] = b.setWidth 32 := by
  apply BitVec.eq_of_toNat_eq
  rw [shortNamesHashToPlainSum [b] (by decide : 1 ≤ 5), BitVec.toNat_setWidth_of_le (by decide)]
  simp

theorem units_xlat (b : Byte) : units (xlat b) = [b] := by simpa using units_xlat_append b []

/-- Settles O48: the scan meets the two bytes as the one unit they encode. -/
theorem foldEquivalence : Obligations.FoldEquivalence :=
  fun b _ => ⟨congrArg pjw (units_xlat b), hashName_singleton b, units_xlat_append b⟩

/-! ### Fold patterns -/

theorem hasFoldPattern_iff (x : List Byte) : hasFoldPattern x = true ↔
    ∃ i v n, x[i]? = some v ∧ isLead v = true ∧ x[i + 1]? = some n ∧ isContinuation n = true := by
  fun_induction hasFoldPattern x with
  | case1 => simp
  | case2 v => simp
  | case3 v next rest ih =>
    rw [Bool.or_eq_true, Bool.and_eq_true, ih]
    constructor
    · rintro (⟨hv, hn⟩ | ⟨i, h⟩)
      · exact ⟨0, v, next, rfl, hv, rfl, hn⟩
      · exact ⟨i + 1, h⟩
    · rintro ⟨i, w, n, hw, hl, hn, hc⟩
      cases i with
      | zero =>
        obtain rfl : v = w := by simpa using hw
        obtain rfl : next = n := by simpa using hn
        exact .inl ⟨hl, hc⟩
      | succ i => exact .inr ⟨i, w, n, hw, hl, hn, hc⟩

theorem units_of_no_foldPattern {x : List Byte} (h : hasFoldPattern x = false) : units x = x := by
  fun_induction hasFoldPattern x with
  | case1 => rfl
  | case2 v => rfl
  | case3 v next rest ih =>
    obtain ⟨hv, hrest⟩ := Bool.or_eq_false_iff.1 h
    rw [units_single rest hv, ih hrest]

theorem hasFoldPattern_of_ascii {x : List Byte} (h : ∀ b ∈ x, b < 0x80#8) : hasFoldPattern x = false := by
  refine Bool.eq_false_iff.2 fun hf => ?_
  obtain ⟨i, v, -, hv, hl, -⟩ := (hasFoldPattern_iff x).1 hf
  have ascii := (isAscii_iff v).2 (h v (List.mem_of_getElem? hv))
  simp [not_isLead_of_isAscii ascii] at hl

/-- Settles O50: without a fold pattern every byte is a unit of its own, so that the hash is the plain mixing of the
bytes, as the hash of the encoding always is; `C2 A9` hashes to 0xA9 and its encoding to 0xCC9. -/
theorem hashStableWithoutFoldPattern : Obligations.HashStableWithoutFoldPattern := by
  refine ⟨fun x => ?_, fun x h => ?_, fun _ => hasFoldPattern_of_ascii, by decide⟩
  · simp only [hasFoldPattern_iff, isLead_iff]
  · have hash : hashName x = pjw x := congrArg pjw (units_of_no_foldPattern h)
    exact ⟨units_of_no_foldPattern h, hash, fun _ => (hashName_encodeName x).trans hash.symm⟩

end Sys2Proof.Machine

/-! PROOFS. The laws of the commands (spec/42_laws.md): what `ENC` does to an ASCII name, that a hash depends on the bytes
alone, and the host script `atomhash`, whose waits see the same runs as a host that makes no move. -/

namespace Sys2Proof.Machine

/-! ### An ASCII name, and equal names -/

/-- Settles O40: the run of such a name is on the fast path, and its result is the name itself. -/
theorem asciiNameIsLeftAlone : Obligations.AsciiNameIsLeftAlone := by
  refine ⟨fun x _ h => encodeName_of_all_isAscii ((all_isAscii_iff x).2 h), fun s hb ha hl hc hx => ?_⟩
  have fast : (s.operand .ibuf).all isAscii = true := all_isAscii_bytes_iff.2 hx
  obtain ⟨t, u, haccept, hrun, -, hended, -, -, hresult, hrlen, -, -, hobuf⟩ := encRunsToEncode s hb ha hl hc
  rw [encSteps_of_all_isAscii fast, operand_length] at hrun
  rw [encodeName_of_all_isAscii fast] at hresult hrlen
  have hrsel : u.rsel = .unchanged := congrArg Prod.fst hresult
  rw [if_neg (by simp [hrsel])] at hobuf
  exact ⟨t, u, haccept, hrun, hended, hrsel, BitVec.eq_of_toNat_eq (by simpa using hrlen), hobuf⟩

/-- Settles O39: the two runs take the steps, and leave the hash, of the same sequence. -/
theorem hashIsDeterministic : Obligations.HashIsDeterministic := by
  intro i i' b b' s s' hi hi' hb hb' ha ha' hlen hl hl' hbytes
  have same : s'.operand b' = s.operand b := by
    rw [State.operand, ← hlen]
    exact bytes_congr fun j hj => (hbytes j hj).symm
  obtain ⟨t, u, ht, hrun, hbusy, hended, -, herr, hhash, -⟩ := hashRunsToHash i b s hi hb ha hl
  obtain ⟨t', u', ht', hrun', hbusy', hended', -, herr', hhash', -⟩ := hashRunsToHash i' b' s' hi' hb' ha' hl'
  rw [same] at hrun' hbusy' hhash'
  refine ⟨t, t', _, u, u', ht, ht', hrun, hrun', fun m hm => ?_, hended, hended', hhash.trans hhash'.symm,
    herr.trans herr'.symm⟩
  obtain ⟨v, hv, hvb⟩ := hbusy m hm
  obtain ⟨v', hv', hvb'⟩ := hbusy' m hm
  exact ⟨v, v', hv, hv', hvb, hvb'⟩

/-! ### The agenda plays no part in a micro-step or a command -/

/-- An answer, with another agenda in its next state. -/
def withAgenda (a : List Event) (r : Result) : Result := r.andThen fun t => .next { t with agenda := a }

theorem unitWrite_andThen (s : State) (b : Buf) (i : Nat) (v : Byte) (k : State → Result) :
    (unitWrite s b i v).andThen k = if i < b.size then k (s.setByte b i v) else .fault (.unitIndexOutOfRange b i) :=
  apply_ite (Result.andThen · k) ..

section
variable (s : State) (a : List Event)

theorem encScanStep_withAgenda : encScanStep { s with agenda := a } = withAgenda a (encScanStep s) := by
  simp only [encScanStep, unitRead, apply_ite (withAgenda a)]
  rfl

theorem encCopyStep_withAgenda : encCopyStep { s with agenda := a } = withAgenda a (encCopyStep s) := by
  simp only [encCopyStep, unitRead, unitWrite_andThen, apply_ite (withAgenda a)]
  rfl

theorem encXlatStep_withAgenda : encXlatStep { s with agenda := a } = withAgenda a (encXlatStep s) := by
  simp only [encXlatStep, unitRead, unitWrite_andThen, apply_ite (withAgenda a)]
  rfl

theorem hashRunStep_withAgenda : hashRunStep { s with agenda := a } = withAgenda a (hashRunStep s) := by
  simp only [hashRunStep, unitRead, apply_ite (withAgenda a)]
  rfl

theorem unitStep_withAgenda : unitStep { s with agenda := a } = withAgenda a (unitStep s) := by
  simp only [unitStep]
  split
  · rfl
  · exact encScanStep_withAgenda s a
  · exact encCopyStep_withAgenda s a
  · exact encXlatStep_withAgenda s a
  · exact hashRunStep_withAgenda s a

theorem execEnc_withAgenda : execEnc { s with agenda := a } = withAgenda a (execEnc s) := by
  simp only [execEnc, unlessBusy, withLength, withCapacity, apply_ite (withAgenda a)]
  rfl

theorem hashCommand_withAgenda (b : Buf) : hashCommand b { s with agenda := a } = withAgenda a (hashCommand b s) := by
  simp only [hashCommand, unlessBusy, withLength, apply_ite (withAgenda a)]
  rfl

theorem exec_withAgenda (i : Instr) : exec i { s with agenda := a } = withAgenda a (exec i s) := by
  cases i with
  | enc => exact execEnc_withAgenda s a
  | hashI => exact hashCommand_withAgenda s a .ibuf
  | hashO => exact hashCommand_withAgenda s a .obuf

end

/-! ### The `wait` line -/

section
variable {s t u : State} {rest : List Event}

/-- A host that waits sees the micro-steps of a block whose host makes no move (logs 1 and 9). -/
theorem RunsTo.waiting {n : Nat} (hrun : RunsTo n s u) (ha : s.agenda = [])
    (hbusy : ∀ m < n, ∃ v, RunsTo m s v ∧ v.busy = true) (rest : List Event) :
    RunsTo n { s with agenda := .wait :: rest } { u with agenda := .wait :: rest } := by
  induction n generalizing s with
  | zero =>
    cases hrun
    rfl
  | succ n ih =>
    obtain ⟨t, ht, hrun⟩ := hrun
    obtain ⟨_, rfl, hb⟩ := hbusy 0 (Nat.succ_pos n)
    have unit : unitStep s = .next t := step_of_no_agenda ha ▸ ht
    refine runsTo_succ (t := { t with agenda := .wait :: rest }) ?_
      (ih hrun ((congrArg (·.agenda) (unitStep_move unit).frame).trans ha) fun m hm => ?_)
    · rw [step_of_unitTurn (s := { s with agenda := .wait :: rest }) hb]
      exact (unitStep_withAgenda s _).trans (congrArg (withAgenda _) unit)
    · obtain ⟨v, ⟨t', ht', hv⟩, hvb⟩ := hbusy (m + 1) (Nat.succ_lt_succ hm)
      cases ht.symm.trans ht'
      exact ⟨v, hv, hvb⟩

/-- The poll that finds `BUSY == 0` ends the line (log 9). -/
theorem step_wait_of_idle (hb : s.busy = false) (ha : s.agenda = .wait :: rest) :
    step s = .next { s with agenda := rest, returned := .word (statusWord s) :: s.returned } := by
  rw [step_of_agenda_cons ha]
  exact if_neg (c := s.busy = true) (by simp [hb])

/-- A command at its word and the `wait` after it: the run of the command on a block whose host makes no move. -/
theorem runsTo_command_wait {i : Instr} {n : Nat} (hw : s.presentedWord = some (encode i))
    (ha : s.agenda.tail = .wait :: rest) (ht : exec i { s with agenda := [] } = .next t) (hrun : RunsTo n t u)
    (hbusy : ∀ m < n, ∃ v, RunsTo m t v ∧ v.busy = true) (hu : u.busy = false) :
    RunsTo (1 + n + 1) s { u with agenda := rest, returned := .word (statusWord u) :: u.returned } := by
  have command : step s = .next { t with agenda := .wait :: rest } := by
    rw [step_of_presented_command hw, State.popped, ha]
    exact (exec_withAgenda { s with agenda := [] } _ i).trans (congrArg (withAgenda _) ht)
  have wait := hrun.waiting (congrArg (·.agenda) (exec_move ht).frame) hbusy rest
  have poll := step_wait_of_idle (s := { u with agenda := .wait :: rest }) hu rfl
  exact runsTo_add (runsTo_add (runsTo_succ command rfl) wait) (runsTo_succ poll rfl)

/-! ### The lines of `atomhash` -/

theorem statusErr_statusWord (s : State) : statusErr (statusWord s) = s.err.code := by
  unfold statusErr statusWord
  cases s.busy <;> cases s.err <;> rfl

theorem ErrCode.code_eq_zero_iff (c : ErrCode) : c.code = 0 ↔ c = .ok := by cases c <;> decide

/-- The stopping line reads `STATUS`, and drops the host lines that are left exactly when `ERR` is not 0 (log 10). -/
theorem step_stopOnError (ha : s.agenda = .stopOnError :: rest) :
    step s = .next { s with
      agenda := if s.err = .ok then rest else rest.filter (fun e => !e.isHostLine)
      returned := .word (statusWord s) :: s.returned } := by
  have ok : statusErr (statusWord { s with agenda := rest }) = 0 ↔ s.err = .ok := by
    rw [statusErr_statusWord, ErrCode.code_eq_zero_iff]
  rw [step_of_agenda_cons ha]
  simp only [runEvent, stopOnErrorLine, ne_eq, ok, ite_not]
  split <;> rfl

theorem step_stopOnError_of_ok (ha : s.agenda = .stopOnError :: rest) (he : s.err = .ok) :
    step s = .next { s with agenda := rest, returned := .word (statusWord s) :: s.returned } := by
  rw [step_stopOnError ha, if_pos he]

theorem step_stopOnError_of_err (ha : s.agenda = .stopOnError :: rest) (he : s.err ≠ .ok) :
    step s = .next { s with
      agenda := rest.filter (fun e => !e.isHostLine)
      returned := .word (statusWord s) :: s.returned } := by
  rw [step_stopOnError ha, if_neg he]

/-- A read that the spec fixes hands its value to the host (R24). -/
theorem step_regRead_of_value {r : Reg} {v : Word} (ha : s.agenda = Script.rd r :: rest) (hv : regValue s r = some v) :
    step s = .next { s with agenda := rest, returned := .word v :: s.returned } := by
  rw [step_regRead ha, hostRegRead_of_value (v := v) (by cases r <;> exact hv)]
  rfl

/-- The line `wr LEN, n` after a read of `RLEN` stores what was read: a count survives its way through a word. -/
theorem step_lenFromRead {x : Count} {l : List Datum} (hb : s.busy = false) (ha : s.agenda = .lenFromRead :: rest)
    (hr : s.returned = .word (x.setWidth 32) :: l) : step s = .next { s with len := x, agenda := rest } := by
  have low : (x.setWidth 32).extractLsb' 0 10 = x := BitVec.eq_of_toNat_eq (by simpa using x.isLt)
  rw [step_of_agenda_cons ha]
  simp only [runEvent, runLenFromRead, hr, runMove, hostRegWrite, hb, low]
  rfl

/-- The lines between the two commands: with `ERR == 0` they read the result of `ENC` and write `LEN <- RLEN`. -/
theorem runsTo_lenFromResult (hb : s.busy = false) (he : s.err = .ok)
    (ha : s.agenda = .stopOnError :: Script.rd .rsel :: Script.rd .rlen :: .lenFromRead :: rest) :
    RunsTo 4 s { s with
      agenda := rest
      len := s.rlen
      returned := .word (s.rlen.setWidth 32) :: .word (s.rsel.bit.setWidth 32) :: .word (statusWord s) ::
        s.returned } := by
  refine runsTo_succ (step_stopOnError_of_ok ha he) ?_
  refine runsTo_succ (step_regRead_of_value (v := s.rsel.bit.setWidth 32) rfl (by simp [regValue, hb])) ?_
  refine runsTo_succ (step_regRead_of_value (v := s.rlen.setWidth 32) rfl (by simp [regValue, hb])) ?_
  exact runsTo_succ (step_lenFromRead hb rfl rfl) rfl

theorem presentedWord_cmdw_enc (ha : s.agenda = Script.cmdw 0x00000001 :: rest) :
    s.presentedWord = some (encode .enc) := by
  rw [State.presentedWord, ha]
  rfl

/-- The hash line presents the command for the buffer that `RSEL` names (R17, R59). -/
theorem presentedWord_hashFromRead {x : ResultSel} {d : Datum} {l : List Datum} (ha : s.agenda = .hashFromRead :: rest)
    (hr : s.returned = d :: .word (x.bit.setWidth 32) :: l) : s.presentedWord = some (encode x.buf.hashInstr) := by
  simp only [State.presentedWord, ha, hr]
  cases x <;> decide

/-- An encoding fits the buffer its tag names (R17, R71). -/
theorem length_encodeName_le_size {x : List Byte} (hx : x.length ≤ 255) :
    (encodeName x).2.length ≤ (encodeName x).1.buf.size := by
  cases h : x.all isAscii
  · have high := highCount_le_length x
    rw [length_encodeName, encodeName_of_not_all_isAscii h]
    show _ ≤ 510
    omega
  · rw [encodeName_of_all_isAscii h]
    exact hx

theorem HashFrame.byteAt (h : HashFrame s t) (b : Buf) (j : Nat) : t.byteAt b j = s.byteAt b j := by
  cases b with
  | ibuf =>
    obtain ⟨-, -, hibuf⟩ := h.operands
    exact hibuf j
  | obuf => exact h.obuf j (Nat.zero_le j)

theorem HashFrame.encResult (h : HashFrame s t) : t.encResult = s.encResult := by
  rw [State.encResult, h.rsel, h.rlen]
  exact congrArg (s.rsel, ·) (bytes_congr fun j _ => h.byteAt _ j)

/-! ### The two halves of `atomhash` -/

/-- `atomhash` up to its hash line: `ENC`, the `wait`, and the lines that write `LEN <- RLEN`. -/
theorem runsTo_encode (hb : s.busy = false)
    (ha : s.agenda = Script.cmdw 0x00000001 :: .wait :: .stopOnError :: Script.rd .rsel :: Script.rd .rlen ::
      .lenFromRead :: rest)
    (hl : s.len.toNat ≤ 255) (hc : 2 * s.len.toNat ≤ s.cap.toNat) :
    ∃ n u, RunsTo n s u ∧ u.agenda = rest ∧ u.busy = false ∧
      (∃ d l, u.returned = d :: .word (u.rsel.bit.setWidth 32) :: l) ∧ u.len = u.rlen ∧
      u.encResult = encodeName (s.operand .ibuf) ∧ u.rlen.toNat ≤ u.rsel.buf.size := by
  obtain ⟨t, u, ht, hrun, hbusy, -, hub, herr, hresult, hrlen, -⟩ :=
    encRunsToEncode { s with agenda := [] } hb rfl hl hc
  have encode := runsTo_command_wait (presentedWord_cmdw_enc ha) (by rw [ha]; rfl) ht hrun hbusy hub
  have fits : u.rlen.toNat ≤ u.rsel.buf.size := by
    have tag : u.rsel = (encodeName (s.operand .ibuf)).1 := congrArg Prod.fst hresult
    rw [hrlen, tag]
    exact length_encodeName_le_size (by simpa using hl)
  exact ⟨_, _, runsTo_add encode (runsTo_lenFromResult hub herr rfl), rfl, hub, ⟨_, _, rfl⟩, rfl, hresult, fits⟩

/-- The hash line and the `wait` after it. -/
theorem runsTo_hash {x : ResultSel} {d : Datum} {l : List Datum} (hb : s.busy = false)
    (ha : s.agenda = .hashFromRead :: .wait :: rest) (hr : s.returned = d :: .word (x.bit.setWidth 32) :: l)
    (hl : s.len.toNat ≤ x.buf.size) :
    ∃ n u, RunsTo n s u ∧ u.agenda = rest ∧ u.busy = false ∧ u.ph = .idle ∧ u.err = .ok ∧
      u.hash = hashName (s.operand x.buf) ∧ HashFrame s u := by
  have hib : (x.buf.hashInstr = .hashI ∧ x.buf = .ibuf) ∨ (x.buf.hashInstr = .hashO ∧ x.buf = .obuf) := by
    cases x
    · exact .inl ⟨rfl, rfl⟩
    · exact .inr ⟨rfl, rfl⟩
  obtain ⟨t, u, ht, hrun, hbusy, ⟨-, hph⟩, hub, herr, hhash, hops, hobuf, hrsel, hrlen⟩ :=
    hashRunsToHash _ _ { s with agenda := [] } hib hb rfl hl
  exact ⟨_, _, runsTo_command_wait (presentedWord_hashFromRead ha hr) (by rw [ha]; rfl) ht hrun hbusy hub, rfl, hub,
    hph, herr, hhash, hops, hobuf, hrsel, hrlen⟩

/-- A refused command, the `wait` after it and the stopping line: `ERR` keeps the code, and the host stops. -/
theorem runsTo_refused {i : Instr} {c : ErrCode} (hb : s.busy = false) (hw : s.presentedWord = some (encode i))
    (ha : s.agenda.tail = .wait :: .stopOnError :: rest) (he : exec i s.popped = .next (raiseErr c s.popped))
    (hc : c ≠ .ok) :
    RunsTo 3 s { s with
      err := c
      agenda := rest.filter (fun e => !e.isHostLine)
      returned := .word (statusWord { s with err := c }) :: .word (statusWord { s with err := c }) :: s.returned } := by
  have poll := step_wait_of_idle (s := raiseErr c s.popped) hb ha
  exact runsTo_succ ((step_of_presented_command hw).trans he)
    (runsTo_succ poll (runsTo_succ (step_stopOnError_of_err rfl hc) rfl))

/-- An `ENC` that is refused at acceptance is error entry with the code of the first check that fails (R65, R124). -/
theorem exec_enc_of_refused (hb : s.busy = false) (h : 255 < s.len.toNat ∨ s.cap.toNat < 2 * s.len.toNat) :
    exec .enc s = .next (raiseErr (if 255 < s.len.toNat then .invalidLength else .bufferTooSmall) s) := by
  rw [encAcceptance.1 s hb]
  split_ifs with hl hc
  · rfl
  · rfl
  · exact absurd h (not_or.2 ⟨hl, hc⟩)

end

/-- Settles O38: the encoding fits the buffer that its tag names, so that the hash command on it is accepted, and hashing
it is the plain mixing of the name; a refused `ENC` leaves the block idle, and the stopping line finds its code. -/
theorem atomhashLeavesPlainMixing : Obligations.AtomhashLeavesPlainMixing := by
  refine ⟨fun s hb ha hl hc => ?_, fun s hb hp ha hbad => ?_, fun s rest ha => step_stopOnError ha⟩
  · obtain ⟨n, u, encode, hua, hub, ⟨d, l, hret⟩, hlen, hresult, fits⟩ := runsTo_encode hb ha hl hc
    obtain ⟨m, v, hash, hva, hvb, hvp, hve, hvh, hf⟩ := runsTo_hash hub hua hret (hlen ▸ fits)
    have operand : u.operand u.rsel.buf = (encodeName (s.operand .ibuf)).2 := by
      rw [State.operand, hlen, ← hresult]
      rfl
    have value : v.hash = pjw (s.operand .ibuf) := by rw [hvh, operand, hashName_encodeName]
    have read := step_regRead_of_value (v := v.hash) hva (by simp [regValue, hvb])
    have len : v.len = v.rlen := by rw [hf.operands.1, hlen, hf.rlen]
    exact ⟨_, _, runsTo_add encode (runsTo_add hash (runsTo_succ (n := 0) read rfl)), ⟨rfl, hvp⟩, hvb, hve,
      hf.encResult.trans hresult, len, value, congrArg (some ∘ Datum.word) value⟩
  · have code : (if 255 < s.len.toNat then ErrCode.invalidLength else .bufferTooSmall) ≠ .ok := by split <;> decide
    have run := runsTo_refused hb (presentedWord_cmdw_enc ha) (by rw [ha]; rfl)
      (exec_enc_of_refused (s := s.popped) hb hbad) code
    exact ⟨_, run, ⟨rfl, hp⟩, rfl, rfl⟩

end Sys2Proof.Machine

/-! PROOFS. Errors (spec/60_exceptions.md): which code a presented word leaves in `STATUS.ERR`, who writes `STATUS.ERR`,
that no step faults, and that a host move while busy changes nothing. -/

namespace Sys2Proof.Machine

section
variable {s t : State} {w : Word} {i : Instr}

/-! ### The checks of a command word -/

/-- The largest `LEN` a command accepts: the size of the buffer it reads (R121). -/
def lengthLimit : Instr → Nat
  | .enc => Buf.ibuf.size
  | .hashI => Buf.ibuf.size
  | .hashO => Buf.obuf.size

/-- The checks of a decoded command in the order of R124: the length, then for `ENC` the capacity. -/
def commandErr (i : Instr) (s : State) : ErrCode :=
  if lengthLimit i < s.len.toNat then .invalidLength
  else if i = .enc ∧ s.cap.toNat < 2 * s.len.toNat then .bufferTooSmall
  else .ok

/-- The checks of a command word in the order of R124: the decode, then those of the command. -/
def wordErr (w : Word) (s : State) : ErrCode :=
  match decode w with
  | .ok i => commandErr i s
  | .error _ => .illegalCommand

theorem lengthLimit_eq (i : Instr) : lengthLimit i = if i = .hashO then 510 else 255 := by cases i <;> rfl

theorem commandErr_eq_invalidLength_iff : commandErr i s = .invalidLength ↔ lengthLimit i < s.len.toNat := by
  unfold commandErr
  split_ifs with hl <;> simp [hl]

theorem commandErr_eq_bufferTooSmall_iff : commandErr i s = .bufferTooSmall ↔
    i = .enc ∧ s.len.toNat ≤ lengthLimit i ∧ s.cap.toNat < 2 * s.len.toNat := by
  unfold commandErr
  split_ifs with hl hc
  · exact iff_of_false (by decide) fun ⟨_, hle, _⟩ => hle.not_gt hl
  · exact iff_of_true rfl ⟨hc.1, Nat.not_lt.1 hl, hc.2⟩
  · exact iff_of_false (by decide) fun ⟨hi, _, hlt⟩ => hc ⟨hi, hlt⟩

theorem commandErr_eq_ok_iff : commandErr i s = .ok ↔
    s.len.toNat ≤ lengthLimit i ∧ (i = .enc → 2 * s.len.toNat ≤ s.cap.toNat) := by
  unfold commandErr
  split_ifs with hl hc
  · exact iff_of_false (by decide) fun ⟨hle, _⟩ => hle.not_gt hl
  · exact iff_of_false (by decide) fun ⟨_, hcap⟩ => (hcap hc.1).not_gt hc.2
  · exact iff_of_true rfl ⟨Nat.not_lt.1 hl, fun hi => Nat.not_lt.1 fun hlt => hc ⟨hi, hlt⟩⟩

theorem commandErr_ne_illegalCommand : commandErr i s ≠ .illegalCommand := by
  unfold commandErr
  split_ifs <;> decide

/-- The decode is the only check that an illegal word fails, and no legal word fails it (R123). -/
theorem wordErr_eq_illegalCommand_iff : wordErr w s = .illegalCommand ↔ ∃ e, decode w = .error e := by
  cases hd : decode w with
  | ok i => simp [wordErr, hd, commandErr_ne_illegalCommand]
  | error e => simp [wordErr, hd]

/-- Every other outcome is that of the checks of the command the word decodes to. -/
theorem wordErr_eq_iff {c : ErrCode} (hc : c ≠ .illegalCommand) :
    wordErr w s = c ↔ ∃ i, decode w = .ok i ∧ commandErr i s = c := by
  cases hd : decode w with
  | ok i => simp [wordErr, hd]
  | error e => simp [wordErr, hd, hc.symm]

/-! ### The code a command word leaves -/

/-- A command run on an idle block leaves in `ERR` the outcome of its checks. -/
theorem exec_err (hb : s.busy = false) (h : exec i s = .next t) : t.err = commandErr i s := by
  have hash (b : Buf) (h : hashCommand b s = .next t) : t.err = commandErr b.hashInstr s := by
    have limit : lengthLimit b.hashInstr = b.size := by cases b <;> rfl
    have enc : b.hashInstr ≠ .enc := by cases b <;> decide
    rcases hashCommand_cases h with ⟨hbusy, -⟩ | ⟨-, hl, rfl⟩ | ⟨-, hl, rfl⟩
    · simp [hb] at hbusy
    · exact (commandErr_eq_invalidLength_iff.2 (limit ▸ hl)).symm
    · exact (commandErr_eq_ok_iff.2 ⟨limit ▸ hl, fun he => absurd he enc⟩).symm
  cases i with
  | enc =>
    rcases execEnc_cases h with ⟨hbusy, -⟩ | ⟨-, hl, rfl⟩ | ⟨-, hl, hc, rfl⟩ | ⟨-, hl, hc, rfl⟩
    · simp [hb] at hbusy
    · exact (commandErr_eq_invalidLength_iff (i := .enc).2 hl).symm
    · exact (commandErr_eq_bufferTooSmall_iff.2 ⟨rfl, hl, hc⟩).symm
    · exact (commandErr_eq_ok_iff (i := .enc).2 ⟨hl, fun _ => hc⟩).symm
  | hashI => exact hash .ibuf h
  | hashO => exact hash .obuf h

/-- A command word written while idle leaves in `ERR` the outcome of its checks. -/
theorem commandWrite_err (hb : s.busy = false) (h : commandWrite w s = .next t) : t.err = wordErr w s := by
  cases hd : decode w with
  | ok i =>
    rw [commandWrite_of_decode hd] at h
    rw [exec_err hb h, wordErr, hd]
  | error e =>
    rw [commandWrite_of_illegal hd hb] at h
    cases h
    exact (wordErr_eq_illegalCommand_iff.2 ⟨e, hd⟩).symm

/-- A word presented while idle always answers a next state, with the outcome of its checks in `ERR`. -/
theorem step_presentedWord_err (hb : s.busy = false) (hw : s.presentedWord = some w) :
    ∃ t, step s = .next t ∧ CommandMove w s.popped t ∧ t.err = wordErr w s := by
  obtain ⟨t, ht⟩ := commandWrite_answers_next w s.popped
  exact ⟨t, (step_of_presentedWord hw).trans ht, commandWrite_move ht, commandWrite_err (s := s.popped) hb ht⟩

/-- A word written while idle is accepted, with `ERR` 0, exactly when it starts a unit (R125). -/
theorem CommandMove.err_ok_iff_busy (h : CommandMove w s t) (hb : s.busy = false) : t.err = .ok ↔ t.busy = true := by
  cases h with
  | dropped hbusy => simp [hb] at hbusy
  | refused _ c hc => simp [hc, hb]
  | encAccepted => simp
  | hashAccepted => simp

end

/-- Settles O10: of the checks only the length check gives this code, and the three words have their own limits. -/
theorem invalidLengthExactly : Obligations.InvalidLengthExactly := by
  intro s w hb hw
  obtain ⟨t, ht, -, he⟩ := step_presentedWord_err hb hw
  refine ⟨t, ht, ?_⟩
  simp only [he, wordErr_eq_iff (c := .invalidLength) (by decide), commandErr_eq_invalidLength_iff, exists_instr,
    decode_eq_ok_iff, encode_eq_matchWord]
  rfl

/-- Settles O11: only the capacity check gives this code, which is made for `ENC` after the length check. -/
theorem bufferTooSmallExactly : Obligations.BufferTooSmallExactly := by
  intro s w hb hw
  obtain ⟨t, ht, -, he⟩ := step_presentedWord_err hb hw
  refine ⟨t, ht, ?_⟩
  simp [he, wordErr_eq_iff, commandErr_eq_bufferTooSmall_iff, exists_instr, decode_eq_ok_iff, encode_eq_matchWord,
    Instr.matchWord, lengthLimit_eq]

/-- Settles O12: only the decode gives this code, to the words that are no command's. -/
theorem illegalCommandExactly : Obligations.IllegalCommandExactly := by
  intro s w hb hw
  obtain ⟨t, ht, -, he⟩ := step_presentedWord_err hb hw
  refine ⟨t, ht, ?_⟩
  rw [he, wordErr_eq_illegalCommand_iff, ← decodeIffEncoded.2 w]
  cases decode w <;> simp

/-- Settles O13: a word that is refused is error entry, and one that is accepted starts a unit. -/
theorem errorEntryChangesOnlyErr : Obligations.ErrorEntryChangesOnlyErr := by
  intro s w hb hw
  obtain ⟨t, ht, hm, -⟩ := step_presentedWord_err hb hw
  exact ⟨t, ht, hm.eq_of_err, hm.err_ok_iff_busy hb⟩

/-- Settles O14: while busy the word is dropped; while idle each code is read off the checks in their order. -/
theorem errorPriority : Obligations.ErrorPriority := by
  intro s w hw
  refine ⟨fun hb => ?_, fun hb => ?_⟩
  · exact (step_of_presentedWord hw).trans (unlessBusy_of_busy (s := s.popped) _ hb)
  · obtain ⟨t, ht, -, he⟩ := step_presentedWord_err hb hw
    refine ⟨t, ht, fun hd => ?_, fun i hd hl => ?_, fun hd hl hc => ?_, fun i hd hl hc => ?_⟩
    · exact he.trans (wordErr_eq_illegalCommand_iff.2 hd)
    · exact he.trans ((wordErr_eq_iff (by decide)).2
        ⟨i, hd, commandErr_eq_invalidLength_iff.2 (lengthLimit_eq i ▸ hl)⟩)
    · exact he.trans ((wordErr_eq_iff (by decide)).2 ⟨_, hd, commandErr_eq_bufferTooSmall_iff.2 ⟨rfl, hl, hc⟩⟩)
    · exact he.trans ((wordErr_eq_iff (by decide)).2 ⟨i, hd, commandErr_eq_ok_iff.2 ⟨lengthLimit_eq i ▸ hl, hc⟩⟩)

/-! ### Who writes `STATUS.ERR` -/

theorem SameBlock.err {s t : State} (h : SameBlock s t) : t.err = s.err := congrArg (·.err) h
theorem UnitMove.err {s t : State} (h : UnitMove s t) : t.err = s.err := congrArg (·.err) h.frame
theorem HostWrite.err {s u : State} (h : HostWrite s u) : u.err = s.err := congrArg (·.err) h.frame

/-- Settles O22: micro-steps and lines of the host have `ERR` in their frames, and a word presented while busy is
dropped. -/
theorem onlyDecodeOrResetWritesErr : Obligations.OnlyDecodeOrResetWritesErr := by
  intro s t hstep hne
  cases step_move hstep with
  | unit hu h => exact absurd ((unitStep_move h).err.trans (turnState_sameBlock s).err) hne
  | reset hr => exact .inl hr
  | command w hu hr hw h =>
    refine .inr ⟨Bool.eq_false_iff.2 fun hb => hne ?_, by simp [hw]⟩
    rw [(commandWrite_move h).eq_of_busy hb, popped_err]
  | host hu hr hw u hh h => exact absurd (h.err.trans hh.err) hne

/-! ### No step faults -/

section
variable {s : State} {m : Move}

/-- Every move of the host is answered by a next state. -/
theorem runMove_answers_next (hm : m.wf = true) (s : State) : ∃ t, runMove m s = .next t := by
  rw [runMove.eq_def, if_pos hm]
  cases m with
  | regRead r => exact ⟨_, rfl⟩
  | regWrite r v =>
    cases r with
    | cmd => exact commandWrite_answers_next v s
    | _ => exact ⟨_, rfl⟩
  | bufRead b i => exact ⟨_, rfl⟩
  | bufWrite b i v => exact ⟨_, rfl⟩

theorem runMove_of_not_wf (hm : m.wf = false) (s : State) : runMove m s = .refused (.notAMove m) :=
  if_neg (by simp [hm])

/-- The move that an access stands for is one of the host's moves: the window shows no byte outside a buffer (R33). -/
theorem toMove_wf {a : Access} (h : a.toMove = some m) : m.wf = true := by
  rcases (toMove_iff a m).1 h with ⟨r, -, rfl⟩ | ⟨r, v, -, rfl⟩ | ⟨b, i, hi, -, rfl⟩ | ⟨b, i, v, hi, -, rfl⟩
  · rfl
  · rfl
  · exact decide_eq_true hi
  · exact decide_eq_true hi

theorem runLenFromRead_cases (s : State) :
    (∃ t, runLenFromRead s = .next t) ∨ runLenFromRead s = .refused .noReadValue := by
  unfold runLenFromRead
  split
  · exact .inl (runMove_answers_next rfl s)
  · exact .inr rfl

theorem runHashFromRead_cases (s : State) :
    (∃ t, runHashFromRead s = .next t) ∨ runHashFromRead s = .refused .noReadValue := by
  unfold runHashFromRead
  split
  · exact .inl (commandWrite_answers_next _ s)
  · exact .inr rfl

theorem Invariant.step_of_unitTurn_answers_next (h : Invariant s) (hu : s.unitTurn = true) : ∃ t, step s = .next t := by
  rw [step_of_unitTurn hu]
  exact (h.phase.sameBlock (turnState_sameBlock s)).unitStep_answers_next

end

/-- Settles O31: on the unit's turn the invariant keeps every access inside its buffer; on any other turn the line of the
host is answered, or is one of the three that are refused. -/
theorem noStepFaults : Obligations.NoStepFaults := by
  intro s hinv
  by_cases hu : s.unitTurn = true
  · exact .inl (hinv.step_of_unitTurn_answers_next hu)
  cases ha : s.agenda with
  | nil => simp [State.unitTurn, ha] at hu
  | cons e rest =>
    rw [step_of_agenda_cons ha]
    cases e with
    | unitStep => simp [State.unitTurn, ha] at hu
    | wait => exact .inl ⟨_, if_neg (by simpa [State.unitTurn, ha] using hu)⟩
    | reset => exact .inl ⟨_, rfl⟩
    | stopOnError => exact .inl ⟨_, rfl⟩
    | move m =>
      cases hm : m.wf
      · exact .inr (.inr (.inl ⟨m, rest, rfl, hm, runMove_of_not_wf hm _⟩))
      · exact .inl (runMove_answers_next hm _)
    | access a =>
      cases hm : a.toMove with
      | none => exact .inr (.inl ⟨a, rest, rfl, hm, runAccess_of_none hm _⟩)
      | some m =>
        simp only [runEvent, runAccess_of_toMove hm]
        exact .inl (runMove_answers_next (toMove_wf hm) _)
    | lenFromRead =>
      exact (runLenFromRead_cases _).imp_right fun h => .inr (.inr ⟨_, rest, rfl, .inl rfl, h⟩)
    | hashFromRead =>
      exact (runHashFromRead_cases _).imp_right fun h => .inr (.inr ⟨_, rest, rfl, .inr rfl, h⟩)

/-! ### The host while a unit runs -/

section
variable {s t : State} {m : Move} {rest : List Event}

/-- While a unit runs `ERR` is the 0 of its acceptance (R65, R88). -/
theorem PhaseInv.err_ok (h : PhaseInv s) (hp : s.ph ≠ .idle) : s.err = .ok := by
  cases ph : s.ph with
  | idle => exact absurd ph hp
  | encScan => exact (h.scanInv ph).err_ok
  | encCopy => exact (h.copyInv ph).err_ok
  | encXlat => exact (h.xlatInv ph).err_ok
  | hshRun => exact (h.hashInv ph).err_ok

theorem Invariant.err_ok_of_busy (h : Invariant s) (hb : s.busy = true) : s.err = .ok :=
  h.phase.err_ok (h.busy_iff.1 hb)

/-- A read changes nothing but what the host has issued and received. -/
theorem step_read (hm : m.isRead = true) (hwf : m.wf = true) (ha : s.agenda = .move m :: rest) :
    ∃ t, step s = .next t ∧ SameBlock s t ∧ t.agenda = rest := by
  rw [step_of_agenda_cons ha]
  obtain ⟨t, ht⟩ := runMove_answers_next hwf { s with agenda := rest }
  have cmd (w : Word) : m ≠ .regWrite .cmd w := by rintro rfl; cases hm
  obtain ⟨-, -, -, hta⟩ := runMove_host cmd ht
  exact ⟨t, ht, (runMove_sameBlock_of_isRead hm ht).of_agenda, hta⟩

/-- A write while busy is dropped, a command word without being decoded (R130). -/
theorem runMove_write_of_busy (hb : s.busy = true) (hm : m.isRead = false) (hwf : m.wf = true) :
    runMove m s = .next s := by
  rw [runMove.eq_def, if_pos hwf]
  cases m with
  | regRead | bufRead => cases hm
  | bufWrite b i v => simp [hostBufWrite, hb]
  | regWrite r v =>
    cases r with
    | cmd => exact unlessBusy_of_busy _ hb
    | len | cap => simp [hostRegWrite, hb]
    | _ => rfl

theorem step_write_of_busy (hb : s.busy = true) (hm : m.isRead = false) (hwf : m.wf = true)
    (ha : s.agenda = .move m :: rest) : step s = .next { s with agenda := rest } :=
  (step_of_agenda_cons ha).trans (runMove_write_of_busy (s := { s with agenda := rest }) hb hm hwf)

/-- A step on a busy block that is neither the unit's turn nor a reset changes no state of the block (R130). -/
theorem StepMove.sameBlock_of_busy (h : StepMove s t) (hb : s.busy = true) (hu : s.unitTurn = false)
    (hr : s.resetTurn = false) : SameBlock s t := by
  cases h with
  | unit hu' => simp [hu] at hu'
  | reset hr' => simp [hr] at hr'
  | command w _ _ _ hc =>
    rw [(commandWrite_move hc).eq_of_busy hb]
    exact popped_sameBlock s
  | host _ _ _ u hh hs => rwa [hh.eq_of_busy hb] at hs

end

/-- Settles O36: a read only hands over a value, a write is dropped, and so is any other line that would write. -/
theorem busyMovesChangeNothing : Obligations.BusyMovesChangeNothing := by
  refine ⟨fun s m rest hb ha hwf => ?_, fun s t hb hu hr h => (step_move h).sameBlock_of_busy hb hu hr⟩
  cases hm : m.isRead
  · exact ⟨_, step_write_of_busy hb hm hwf ha, rfl, rfl, fun _ _ _ => rfl, fun _ _ _ _ => rfl,
      fun hinv => hinv.err_ok_of_busy hb⟩
  · obtain ⟨t, ht, hsb, hta⟩ := step_read hm hwf ha
    refine ⟨t, ht, hsb, hta, ?_, ?_, fun hinv => hsb.err.trans (hinv.err_ok_of_busy hb)⟩
    · rintro r v rfl
      cases hm
    · rintro b i v rfl
      cases hm

end Sys2Proof.Machine

/-! PROOFS. Reset and hazards (spec/70_reset_and_hazards.md): the reset event, the unit's turn, that every wait ends, and
which states are final. Both of the last two rest on one count of the micro-steps left, which every micro-step of a busy
unit takes down by one. -/

namespace Sys2Proof.Machine

/-! ### The reset event -/

/-- Settles O59: the entry is taken off the agenda, and the event writes the reset values whatever stood there before. -/
theorem resetEventRestoresRegisters : Obligations.ResetEventRestoresRegisters :=
  fun s rest ha => ⟨resetEvent { s with agenda := rest }, step_of_agenda_cons ha,
    rfl, rfl, rfl, rfl, rfl, rfl, rfl, rfl, rfl, rfl⟩

/-! ### The unit's turn -/

/-- Settles O16: in each of the three cases of the unit's turn the agenda entry runs the micro-step. -/
theorem unitTurnIsMicroStep : Obligations.UnitTurnIsMicroStep := fun _ => step_of_unitTurn

section
variable {s t : State} {rest : List Event}

theorem turnState_of_wait (ha : s.agenda = .wait :: rest) : s.turnState = s := by simp [State.turnState, ha]

/-- A turn that the agenda does not name takes no entry off it. -/
theorem unitTurn_cases (hu : s.unitTurn = true) :
    (s.agenda = [] ∧ s.turnState = s) ∨ s.agenda = .unitStep :: s.turnState.agenda ∨
      (s.busy = true ∧ s.turnState = s) := by
  unfold State.unitTurn at hu
  split at hu
  · rename_i ha
    exact .inl ⟨ha, by simp [State.turnState, ha]⟩
  · rename_i ha
    exact .inr (.inl (by simp [State.turnState, ha]))
  · rename_i ha
    exact .inr (.inr ⟨hu, turnState_of_wait ha⟩)
  · cases hu

theorem unitStep_of_idle (h : s.ph = .idle) : unitStep s = .next s := by simp [unitStep, h]

theorem UnitMove.agenda (hm : UnitMove s t) : t.agenda = s.agenda := congrArg (·.agenda) hm.frame

theorem CommandMove.agenda {w : Word} (hm : CommandMove w s t) : t.agenda = s.agenda := congrArg (·.agenda) hm.frame

/-! ### The micro-steps left -/

/-- How many micro-steps the busy unit still takes, whichever it is; none when no unit is busy. -/
def stepsLeft (s : State) : Nat := encStepsLeft s + hashStepsLeft s

theorem encStepsLeft_of_not_isEnc (h : s.ph.isEnc = false) : encStepsLeft s = 0 := by
  cases hp : s.ph with
  | idle | hshRun => simp only [encStepsLeft, hp]
  | encScan | encCopy | encXlat => simp [hp, Phase.isEnc] at h

theorem hashStepsLeft_of_ne (h : s.ph ≠ .hshRun) : hashStepsLeft s = 0 := by
  cases hp : s.ph with
  | hshRun => exact absurd hp h
  | idle | encScan | encCopy | encXlat => simp only [hashStepsLeft, hp]

theorem stepsLeft_of_idle (h : s.ph = .idle) : stepsLeft s = 0 := by simp [stepsLeft, encStepsLeft, hashStepsLeft, h]

theorem Phase.isEnc_of_ne {p : Phase} (hi : p ≠ .idle) (hh : p ≠ .hshRun) : p.isEnc = true := by
  cases p with
  | idle => exact absurd rfl hi
  | hshRun => exact absurd rfl hh
  | encScan | encCopy | encXlat => rfl

/-- A micro-step stays with its unit, or completes its command. -/
theorem UnitMove.ph_hshRun_or_idle (hm : UnitMove s t) (hp : s.ph = .hshRun) : t.ph = .hshRun ∨ t.ph = .idle := by
  cases hm with
  | hashDone => exact .inr rfl
  | hashPair | hashSingle => exact .inl hp
  | _ hp' => simp [hp] at hp'

/-- Every micro-step of a busy unit is one of those left (R74, R96). -/
theorem UnitMove.stepsLeft_eq (hm : UnitMove s t) (h : PhaseInv s) (hp : s.ph ≠ .idle) :
    stepsLeft s = stepsLeft t + 1 := by
  by_cases hh : s.ph = .hshRun
  · have enc : encStepsLeft s = 0 ∧ encStepsLeft t = 0 := by
      refine ⟨encStepsLeft_of_not_isEnc (by rw [hh]; rfl), encStepsLeft_of_not_isEnc ?_⟩
      rcases hm.ph_hshRun_or_idle hh with ht | ht <;> rw [ht] <;> rfl
    simp only [stepsLeft, enc, hm.hashStepsLeft_eq (h.hashInv hh) hh]
    omega
  · have henc := Phase.isEnc_of_ne hp hh
    have hash : hashStepsLeft s = 0 ∧ hashStepsLeft t = 0 := by
      refine ⟨hashStepsLeft_of_ne hh, hashStepsLeft_of_ne fun ht => ?_⟩
      exact (Phase.ne_of_isEnc (hm.isEnc henc (by simp [ht]))).2 ht
    simp only [stepsLeft, hash, hm.encStepsLeft_eq h henc]

/-- No run is longer than that of an `ENC` of 255 bytes (R74, R147). -/
theorem PhaseInv.stepsLeft_le (h : PhaseInv s) : stepsLeft s ≤ 512 := by
  cases hp : s.ph with
  | idle => simp [stepsLeft_of_idle hp]
  | encScan =>
    have hl : s.len.toNat ≤ 255 := (h.scanInv hp).len_le
    have steps : encSteps (s.operand .ibuf) ≤ 2 * s.len.toNat + 2 := by
      simpa using (stepCountBounds (s.operand .ibuf)).2.1
    simp only [stepsLeft, encStepsLeft, hashStepsLeft, hp]
    omega
  | encCopy =>
    have hl : s.len.toNat ≤ 255 := (h.copyInv hp).len_le
    simp only [stepsLeft, encStepsLeft, hashStepsLeft, hp]
    omega
  | encXlat =>
    have hl : s.len.toNat ≤ 255 := (h.xlatInv hp).len_le
    simp only [stepsLeft, encStepsLeft, hashStepsLeft, hp]
    omega
  | hshRun =>
    have hl : s.len.toNat ≤ 510 := (h.hashInv hp).len_le.trans (by cases s.hs <;> decide)
    have units := (length_units_bounds (s.slice s.hs s.iCur.toNat (s.len.toNat - s.iCur.toNat))).2
    rw [slice_length] at units
    simp only [stepsLeft, encStepsLeft, hashStepsLeft, hashSteps, hp]
    omega

/-! ### A wait -/

/-- The host waits in `s` on a busy block, with `rest` to come. -/
structure WaitingOnBusy (rest : List Event) (s : State) : Prop where
  inv : Invariant s
  busy : s.busy = true
  agenda : s.agenda = .wait :: rest

/-- While the host waits on a busy block the unit takes its micro-steps, one at a step, until it is done (log 9). -/
theorem WaitingOnBusy.step_next (h : WaitingOnBusy rest s) :
    ∃ t, step s = .next t ∧ stepsLeft s = stepsLeft t + 1 ∧
      (WaitingOnBusy rest t ∨ (stepsLeft t = 0 ∧ t.agenda = .wait :: rest ∧ t.busy = false ∧ t.ph = .idle)) := by
  obtain ⟨t, ht⟩ := h.inv.phase.unitStep_answers_next
  have hm := unitStep_move ht
  have inv := h.inv.unitMove hm
  have agenda := hm.agenda.trans h.agenda
  have turn : step s = unitStep s := by
    rw [step_of_unitTurn (by simp [State.unitTurn, h.agenda, h.busy]), turnState_of_wait h.agenda]
  refine ⟨t, turn.trans ht, hm.stepsLeft_eq h.inv.phase (h.inv.busy_iff.1 h.busy), ?_⟩
  cases hb : t.busy
  · have hp := inv.ph_idle hb
    exact .inr ⟨stepsLeft_of_idle hp, agenda, rfl, hp⟩
  · exact .inl ⟨inv, hb, agenda⟩

end

/-- Settles O37: the unit takes the micro-steps left, at most 512, and the next read finds `BUSY == 0`; on an idle block
the first read does. -/
theorem waitEnds : Obligations.WaitEnds := by
  intro s rest inv ha
  cases hb : s.busy
  · exact ⟨1, _, by decide, runsTo_succ (step_wait_of_idle hb ha) rfl, rfl, hb, inv.ph_idle hb⟩
  · obtain ⟨u, hrun, -, hua, hub, hup⟩ :=
      runsTo_of_count (fun _ => WaitingOnBusy.step_next) (WaitingOnBusy.mk inv hb ha)
    exact ⟨stepsLeft s + 1, _, Nat.succ_le_succ inv.phase.stepsLeft_le,
      runsTo_add hrun (runsTo_succ (step_wait_of_idle hub hua) rfl), rfl, hub, hup⟩

/-! ### Final states -/

section
variable {s t : State}

/-- A micro-step of a busy unit changes something: the count of those left. -/
theorem UnitMove.ph_idle_of_self (hm : UnitMove s s) (h : PhaseInv s) : s.ph = .idle := by
  by_contra hp
  have := hm.stepsLeft_eq h hp
  omega

theorem agenda_ne_nil_of_presentedWord {w : Word} (hw : s.presentedWord = some w) : s.agenda ≠ [] := by
  intro ha
  simp [State.presentedWord, ha] at hw

/-- A step that is not the unit's turn takes an entry off the agenda. -/
theorem StepMove.agenda_length_lt (h : StepMove s t) (hu : s.unitTurn = false) : t.agenda.length < s.agenda.length := by
  have tail_lt (hne : s.agenda ≠ []) : s.agenda.tail.length < s.agenda.length := by
    have := List.length_pos_of_ne_nil hne
    rw [List.length_tail]
    omega
  cases h with
  | unit hu' => simp [hu] at hu'
  | reset hr ht =>
    have hne : s.agenda ≠ [] := fun ha => by simp [State.resetTurn, ha] at hr
    exact ht ▸ tail_lt hne
  | command w _ _ hw hc =>
    rw [(commandWrite_move hc).agenda]
    exact tail_lt (agenda_ne_nil_of_presentedWord hw)
  | host _ _ _ u hh hs ha hl => exact hl.trans_lt (tail_lt ha)

theorem step_of_ended (h : Ended s) : step s = .next s := by
  obtain ⟨ha, hp⟩ := h
  rw [step_of_no_agenda ha, unitStep_of_idle hp]

/-- A step that changes nothing has found the run ended: any turn but the unit's takes its entry off the agenda, and a
micro-step of a busy unit is one of a number left. -/
theorem Invariant.ended_of_step_self (h : Invariant s) (hstep : step s = .next s) : Ended s := by
  cases hu : s.unitTurn
  · exact absurd ((step_move hstep).agenda_length_lt hu) (Nat.lt_irrefl _)
  · have hm : UnitMove s.turnState s := unitStep_move (step_of_unitTurn hu ▸ hstep)
    rcases unitTurn_cases hu with ⟨ha, hts⟩ | ha | ⟨hb, hts⟩
    · rw [hts] at hm
      exact ⟨ha, hm.ph_idle_of_self h.phase⟩
    · rw [← hm.agenda] at ha
      exact absurd ha.symm (List.cons_ne_self _ _)
    · rw [hts] at hm
      exact absurd (hm.ph_idle_of_self h.phase) (h.busy_iff.1 hb)

end

/-- Settles O60: a step that changes nothing has found the run ended, and then no move and no micro-step is enabled. -/
theorem finalExactlyWhenEnded : Obligations.FinalExactlyWhenEnded :=
  fun _ h => ⟨h.ended_of_step_self, step_of_ended⟩

end Sys2Proof.Machine

/-! PROOFS. The command words of the test vectors (spec/95_test_vectors.md section 4.1), field by field. -/

namespace Sys2Proof

/-- Settles O5: the three fields of each word are those of its command, with `ZERO = 0` (R50, R52). -/
theorem writtenOutWordsDecode : Obligations.WrittenOutWordsDecode where
  left := (decode_eq_ok_iff_fields _ .enc).2 (by decide)
  right := ⟨(decode_eq_ok_iff_fields _ .hashI).2 (by decide), (decode_eq_ok_iff_fields _ .hashO).2 (by decide)⟩

end Sys2Proof
